-- ==== Sys2Proof/Word.lean ====
section
/-! DEFINITION. The machine's word types (spec/00_scope.md R6, R8, R9): every value is unsigned. -/

namespace Sys2Proof

/-- A byte: a general register's, a timer's or a memory cell's contents (R6 V_WIDTH, TIMER_WIDTH). -/
abbrev Byte := BitVec 8

/-- An instruction word, and a value of the program counter (R6 INSTR_WIDTH, PC_WIDTH). -/
abbrev Word := BitVec 16

/-- A 12-bit address: the field nnn and the register I (R6 I_WIDTH). -/
abbrev Addr := BitVec 12

/-- A nibble: a register index, a key number or a sprite height (R8, R71). -/
abbrev Nibble := BitVec 4

/-- The register file index of the flag register VF (R6 FLAG_REG, R21). -/
abbrev vf : Nibble := 0xF#4

end Sys2Proof
end

