-- ==== Sys2Proof/Syntax.lean ====
section
/-! DEFINITION. The instructions: one constructor per row of spec/opcode_table.json, in its order
(spec/30_encoding.md R73). The fields are those of R70: x and y register indices, kk a byte, nnn a
12-bit address, n a count. A word of the unknown space outside op = 0 has no row and no constructor:
the decoder rejects it by name (R74; log 26). -/

namespace Sys2Proof

inductive Instr where
  /-- 00E0 CLS: clear the screen (R190). -/
  | cls
  /-- 00EE RET: return from a subroutine (R100). -/
  | ret
  /-- 0nnn SYS: an unknown opcode with a row of its own (R76). -/
  | sys (nnn : Addr)
  /-- 1nnn JP: jump (R101). -/
  | jp (nnn : Addr)
  /-- 2nnn CALL: call a subroutine (R102). -/
  | call (nnn : Addr)
  /-- 3xkk SE Vx, byte (R120). -/
  | seVxKk (x : Nibble) (kk : Byte)
  /-- 4xkk SNE Vx, byte (R121). -/
  | sneVxKk (x : Nibble) (kk : Byte)
  /-- 5xy0 SE Vx, Vy (R122). -/
  | seVxVy (x y : Nibble)
  /-- 6xkk LD Vx, byte (R140). -/
  | ldVxKk (x : Nibble) (kk : Byte)
  /-- 7xkk ADD Vx, byte (R141). -/
  | addVxKk (x : Nibble) (kk : Byte)
  /-- 8xy0 LD Vx, Vy (R142). -/
  | ldVxVy (x y : Nibble)
  /-- 8xy1 OR Vx, Vy (R143). -/
  | orVxVy (x y : Nibble)
  /-- 8xy2 AND Vx, Vy (R144). -/
  | andVxVy (x y : Nibble)
  /-- 8xy3 XOR Vx, Vy (R145). -/
  | xorVxVy (x y : Nibble)
  /-- 8xy4 ADD Vx, Vy (R146). -/
  | addVxVy (x y : Nibble)
  /-- 8xy5 SUB Vx, Vy (R147). -/
  | sub (x y : Nibble)
  /-- 8xy6 SHR Vx, Vy (R148). -/
  | shr (x y : Nibble)
  /-- 8xy7 SUBN Vx, Vy (R149). -/
  | subn (x y : Nibble)
  /-- 8xyE SHL Vx, Vy (R150). -/
  | shl (x y : Nibble)
  /-- 9xy0 SNE Vx, Vy (R123). -/
  | sneVxVy (x y : Nibble)
  /-- Annn LD I, addr (R170). -/
  | ldINnn (nnn : Addr)
  /-- Bnnn JP V0, addr (R103). -/
  | jpV0 (nnn : Addr)
  /-- Cxkk RND Vx, byte (R151). -/
  | rnd (x : Nibble) (kk : Byte)
  /-- Dxyn DRW Vx, Vy, nib (R191). -/
  | drw (x y n : Nibble)
  /-- Ex9E SKP Vx (R210). -/
  | skp (x : Nibble)
  /-- ExA1 SKNP Vx (R211). -/
  | sknp (x : Nibble)
  /-- Fx07 LD Vx, DT (R212). -/
  | ldVxDt (x : Nibble)
  /-- Fx0A LD Vx, K (R213). -/
  | ldVxK (x : Nibble)
  /-- Fx15 LD DT, Vx (R214). -/
  | ldDtVx (x : Nibble)
  /-- Fx18 LD ST, Vx (R215). -/
  | ldStVx (x : Nibble)
  /-- Fx1E ADD I, Vx (R171). -/
  | addIVx (x : Nibble)
  /-- Fx29 LD F, Vx (R172). -/
  | ldFVx (x : Nibble)
  /-- Fx33 LD B, Vx (R173). -/
  | ldBVx (x : Nibble)
  /-- Fx55 LD [I], Vx (R174). -/
  | ldMemVx (x : Nibble)
  /-- Fx65 LD Vx, [I] (R175). -/
  | ldVxMem (x : Nibble)
deriving DecidableEq, Repr

end Sys2Proof
end

