-- ==== Sys2Proof/WellFormed.lean ====
section
/-! DEFINITION. Which instructions are well formed: the terms that stand for a word.

The fields' widths are in their types, so one check remains: a SYS word is an op = 0 word other than
0x00E0 and 0x00EE, which are CLS and RET (spec/30_encoding.md R76; the note of row SYS of
spec/opcode_table.json). -/

namespace Sys2Proof

/-- The check, one arm per constructor. -/
def Instr.wellFormed : Instr → Bool
  | .cls => true
  | .ret => true
  | .sys nnn => nnn != 0x0E0#12 && nnn != 0x0EE#12
  | .jp _ => true
  | .call _ => true
  | .seVxKk _ _ => true
  | .sneVxKk _ _ => true
  | .seVxVy _ _ => true
  | .ldVxKk _ _ => true
  | .addVxKk _ _ => true
  | .ldVxVy _ _ => true
  | .orVxVy _ _ => true
  | .andVxVy _ _ => true
  | .xorVxVy _ _ => true
  | .addVxVy _ _ => true
  | .sub _ _ => true
  | .shr _ _ => true
  | .subn _ _ => true
  | .shl _ _ => true
  | .sneVxVy _ _ => true
  | .ldINnn _ => true
  | .jpV0 _ => true
  | .rnd _ _ => true
  | .drw _ _ _ => true
  | .skp _ => true
  | .sknp _ => true
  | .ldVxDt _ => true
  | .ldVxK _ => true
  | .ldDtVx _ => true
  | .ldStVx _ => true
  | .addIVx _ => true
  | .ldFVx _ => true
  | .ldBVx _ => true
  | .ldMemVx _ => true
  | .ldVxMem _ => true

/-- `i` stands for a word of the encoding. -/
abbrev Instr.WellFormed (i : Instr) : Prop := i.wellFormed = true

end Sys2Proof
end

