-- ==== Sys2Proof/Decode.lean ====
section
/-! DEFINITION. The decoder, total on every word and every byte list, and after it the encoder, both
written from spec/30_encoding.md R70 to R77. -/

namespace Sys2Proof

/-! ## Fields (R71) -/

/-- op = w[15:12], the instruction family. -/
def opOf (w : Word) : Nibble := w.extractLsb' 12 4

/-- x = w[11:8], the first register index. -/
def xOf (w : Word) : Nibble := w.extractLsb' 8 4

/-- y = w[7:4], the second register index. -/
def yOf (w : Word) : Nibble := w.extractLsb' 4 4

/-- n = w[3:0], a count. -/
def nOf (w : Word) : Nibble := w.extractLsb' 0 4

/-- kk = w[7:0], a byte. -/
def kkOf (w : Word) : Byte := w.extractLsb' 0 8

/-- nnn = w[11:0], a 12-bit address. -/
def nnnOf (w : Word) : Addr := w.extractLsb' 0 12

/-- The word two fetched bytes make: the byte at the lower address is the high one (R53, R54). -/
def wordOfBytes (hi lo : Byte) : Word := BitVec.ofNat 16 (hi.toNat * 0x100 + lo.toNat)

/-- The high byte of a word, stored at the lower address (R54). -/
def highByte (w : Word) : Byte := w.extractLsb' 8 8

/-- The low byte of a word, stored at the higher address (R54). -/
def lowByte (w : Word) : Byte := w.extractLsb' 0 8

/-! ## Decoding (R73, R74) -/

/-- Why bytes are no instruction of the table. -/
inductive DecodeError where
  /-- The word matches no row (R74); the machine executes it as Unknown(w) (R75). -/
  | unknownOpcode (w : Word)
  /-- Fewer than two bytes: an instruction is always two (R70, R77). -/
  | truncated
deriving DecidableEq, Repr

/-- The op = 0 words (R73 rows 1 and 2; R76). -/
def decode0 (w : Word) : Instr :=
  if w = 0x00E0#16 then .cls
  else if w = 0x00EE#16 then .ret
  else .sys (nnnOf w)

/-- The op = 8 words, by their low nibble (R73 rows 10 to 18; R74(c)). -/
def decode8 (w : Word) : Except DecodeError Instr :=
  match (nOf w).toNat with
  | 0x0 => .ok (.ldVxVy (xOf w) (yOf w))
  | 0x1 => .ok (.orVxVy (xOf w) (yOf w))
  | 0x2 => .ok (.andVxVy (xOf w) (yOf w))
  | 0x3 => .ok (.xorVxVy (xOf w) (yOf w))
  | 0x4 => .ok (.addVxVy (xOf w) (yOf w))
  | 0x5 => .ok (.sub (xOf w) (yOf w))
  | 0x6 => .ok (.shr (xOf w) (yOf w))
  | 0x7 => .ok (.subn (xOf w) (yOf w))
  | 0xE => .ok (.shl (xOf w) (yOf w))
  | _ => .error (.unknownOpcode w)

/-- The op = E words, by their low byte (R73 rows 24 and 25; R74(e)). -/
def decodeE (w : Word) : Except DecodeError Instr :=
  match (kkOf w).toNat with
  | 0x9E => .ok (.skp (xOf w))
  | 0xA1 => .ok (.sknp (xOf w))
  | _ => .error (.unknownOpcode w)

/-- The op = F words, by their low byte (R73 rows 26 to 34; R74(f)). -/
def decodeF (w : Word) : Except DecodeError Instr :=
  match (kkOf w).toNat with
  | 0x07 => .ok (.ldVxDt (xOf w))
  | 0x0A => .ok (.ldVxK (xOf w))
  | 0x15 => .ok (.ldDtVx (xOf w))
  | 0x18 => .ok (.ldStVx (xOf w))
  | 0x1E => .ok (.addIVx (xOf w))
  | 0x29 => .ok (.ldFVx (xOf w))
  | 0x33 => .ok (.ldBVx (xOf w))
  | 0x55 => .ok (.ldMemVx (xOf w))
  | 0x65 => .ok (.ldVxMem (xOf w))
  | _ => .error (.unknownOpcode w)

/-- `Decode(w)` of R73: an instruction of the table, or Unknown(w), here a rejection that names w.
Every fixed nibble is matched exactly (D18; log 25). -/
def decode (w : Word) : Except DecodeError Instr :=
  match (opOf w).toNat with
  | 0x0 => .ok (decode0 w)
  | 0x1 => .ok (.jp (nnnOf w))
  | 0x2 => .ok (.call (nnnOf w))
  | 0x3 => .ok (.seVxKk (xOf w) (kkOf w))
  | 0x4 => .ok (.sneVxKk (xOf w) (kkOf w))
  | 0x5 => if nOf w = 0x0#4 then .ok (.seVxVy (xOf w) (yOf w)) else .error (.unknownOpcode w)
  | 0x6 => .ok (.ldVxKk (xOf w) (kkOf w))
  | 0x7 => .ok (.addVxKk (xOf w) (kkOf w))
  | 0x8 => decode8 w
  | 0x9 => if nOf w = 0x0#4 then .ok (.sneVxVy (xOf w) (yOf w)) else .error (.unknownOpcode w)
  | 0xA => .ok (.ldINnn (nnnOf w))
  | 0xB => .ok (.jpV0 (nnnOf w))
  | 0xC => .ok (.rnd (xOf w) (kkOf w))
  | 0xD => .ok (.drw (xOf w) (yOf w) (nOf w))
  | 0xE => decodeE w
  | _ => decodeF w

/-- Decode the instruction at the head of a byte list, with the bytes after it. -/
def decodeBytes : List Byte → Except DecodeError (Instr × List Byte)
  | hi :: lo :: rest =>
    match decode (wordOfBytes hi lo) with
    | .ok i => .ok (i, rest)
    | .error e => .error e
  | _ => .error .truncated

/-! ## Encoding (R70, R73) -/

/-- A word of the form op, nnn. -/
def wordNnn (op : Nibble) (nnn : Addr) : Word :=
  BitVec.ofNat 16 (op.toNat * 0x1000 + nnn.toNat)

/-- A word of the form op, x, kk. -/
def wordXKk (op x : Nibble) (kk : Byte) : Word :=
  BitVec.ofNat 16 (op.toNat * 0x1000 + x.toNat * 0x100 + kk.toNat)

/-- A word of the form op, x, y, n. -/
def wordXYN (op x y n : Nibble) : Word :=
  BitVec.ofNat 16 (op.toNat * 0x1000 + x.toNat * 0x100 + y.toNat * 0x10 + n.toNat)

/-- The word of an instruction, by the patterns of R73. -/
def encode : Instr → Word
  | .cls => 0x00E0#16
  | .ret => 0x00EE#16
  | .sys nnn => wordNnn 0x0#4 nnn
  | .jp nnn => wordNnn 0x1#4 nnn
  | .call nnn => wordNnn 0x2#4 nnn
  | .seVxKk x kk => wordXKk 0x3#4 x kk
  | .sneVxKk x kk => wordXKk 0x4#4 x kk
  | .seVxVy x y => wordXYN 0x5#4 x y 0x0#4
  | .ldVxKk x kk => wordXKk 0x6#4 x kk
  | .addVxKk x kk => wordXKk 0x7#4 x kk
  | .ldVxVy x y => wordXYN 0x8#4 x y 0x0#4
  | .orVxVy x y => wordXYN 0x8#4 x y 0x1#4
  | .andVxVy x y => wordXYN 0x8#4 x y 0x2#4
  | .xorVxVy x y => wordXYN 0x8#4 x y 0x3#4
  | .addVxVy x y => wordXYN 0x8#4 x y 0x4#4
  | .sub x y => wordXYN 0x8#4 x y 0x5#4
  | .shr x y => wordXYN 0x8#4 x y 0x6#4
  | .subn x y => wordXYN 0x8#4 x y 0x7#4
  | .shl x y => wordXYN 0x8#4 x y 0xE#4
  | .sneVxVy x y => wordXYN 0x9#4 x y 0x0#4
  | .ldINnn nnn => wordNnn 0xA#4 nnn
  | .jpV0 nnn => wordNnn 0xB#4 nnn
  | .rnd x kk => wordXKk 0xC#4 x kk
  | .drw x y n => wordXYN 0xD#4 x y n
  | .skp x => wordXKk 0xE#4 x 0x9E#8
  | .sknp x => wordXKk 0xE#4 x 0xA1#8
  | .ldVxDt x => wordXKk 0xF#4 x 0x07#8
  | .ldVxK x => wordXKk 0xF#4 x 0x0A#8
  | .ldDtVx x => wordXKk 0xF#4 x 0x15#8
  | .ldStVx x => wordXKk 0xF#4 x 0x18#8
  | .addIVx x => wordXKk 0xF#4 x 0x1E#8
  | .ldFVx x => wordXKk 0xF#4 x 0x29#8
  | .ldBVx x => wordXKk 0xF#4 x 0x33#8
  | .ldMemVx x => wordXKk 0xF#4 x 0x55#8
  | .ldVxMem x => wordXKk 0xF#4 x 0x65#8

/-- The bytes of an instruction, as memory holds them from its address on (R54). -/
def encodeBytes (i : Instr) : List Byte := [highByte (encode i), lowByte (encode i)]

/-! ## The opcode table's own numbering -/

/-- The fixed bits of an instruction's row of spec/opcode_table.json: its mask and its match. -/
def rowBits : Instr → Word × Word
  | .cls => (0xFFFF#16, 0x00E0#16)
  | .ret => (0xFFFF#16, 0x00EE#16)
  | .sys _ => (0xF000#16, 0x0000#16)
  | .jp _ => (0xF000#16, 0x1000#16)
  | .call _ => (0xF000#16, 0x2000#16)
  | .seVxKk _ _ => (0xF000#16, 0x3000#16)
  | .sneVxKk _ _ => (0xF000#16, 0x4000#16)
  | .seVxVy _ _ => (0xF00F#16, 0x5000#16)
  | .ldVxKk _ _ => (0xF000#16, 0x6000#16)
  | .addVxKk _ _ => (0xF000#16, 0x7000#16)
  | .ldVxVy _ _ => (0xF00F#16, 0x8000#16)
  | .orVxVy _ _ => (0xF00F#16, 0x8001#16)
  | .andVxVy _ _ => (0xF00F#16, 0x8002#16)
  | .xorVxVy _ _ => (0xF00F#16, 0x8003#16)
  | .addVxVy _ _ => (0xF00F#16, 0x8004#16)
  | .sub _ _ => (0xF00F#16, 0x8005#16)
  | .shr _ _ => (0xF00F#16, 0x8006#16)
  | .subn _ _ => (0xF00F#16, 0x8007#16)
  | .shl _ _ => (0xF00F#16, 0x800E#16)
  | .sneVxVy _ _ => (0xF00F#16, 0x9000#16)
  | .ldINnn _ => (0xF000#16, 0xA000#16)
  | .jpV0 _ => (0xF000#16, 0xB000#16)
  | .rnd _ _ => (0xF000#16, 0xC000#16)
  | .drw _ _ _ => (0xF000#16, 0xD000#16)
  | .skp _ => (0xF0FF#16, 0xE09E#16)
  | .sknp _ => (0xF0FF#16, 0xE0A1#16)
  | .ldVxDt _ => (0xF0FF#16, 0xF007#16)
  | .ldVxK _ => (0xF0FF#16, 0xF00A#16)
  | .ldDtVx _ => (0xF0FF#16, 0xF015#16)
  | .ldStVx _ => (0xF0FF#16, 0xF018#16)
  | .addIVx _ => (0xF0FF#16, 0xF01E#16)
  | .ldFVx _ => (0xF0FF#16, 0xF029#16)
  | .ldBVx _ => (0xF0FF#16, 0xF033#16)
  | .ldMemVx _ => (0xF0FF#16, 0xF055#16)
  | .ldVxMem _ => (0xF0FF#16, 0xF065#16)

/-- The 16-bit word of an instruction whose lowest `nbits` table bits are `w`, the bits above zero. -/
def tableWord (nbits w : Nat) : Word := BitVec.ofNat 16 (w % 2 ^ nbits)

/-- The instruction the decoder reads from a word numbered as spec/opcode_table.json numbers it: laid
out high byte first, as the hardware stores it, and given to the byte decoder. -/
def decodeTableWord (nbits w : Nat) : Option Instr :=
  match decodeBytes [highByte (tableWord nbits w), lowByte (tableWord nbits w)] with
  | .ok (i, _) => some i
  | .error _ => none

end Sys2Proof
end

