-- ==== Sys2Proof/Config.lean ====
section
/-! DEFINITION. What an implementation fixes (spec/00_scope.md R7) and the free values.

The nine parameters of R7 are plain data. A machine carries them in its state (log 1), so every rule
that reads one is modelled for every value of it. Their default values stand in
Sys2Proof/Machine/Params.lean. The free values have no body: no proof can evaluate one. -/

namespace Sys2Proof

/-- PC_OVERFLOW (R7, D1): what a pc above 0xFFF does. -/
inductive PcOverflow where
  /-- The next fetch faults. -/
  | fault
  /-- Every write of pc is reduced mod 0x1000. -/
  | wrap12
deriving DecidableEq, Repr

/-- RESET_REGS (R7, D3): what a register no instruction has written holds. -/
inductive ResetRegs where
  /-- It holds 0. -/
  | zero
  /-- Reading it raises UnwrittenRead. -/
  | unwrittenFaults
deriving DecidableEq, Repr

/-- SHIFT_SOURCE (R7, D5): the register 8xy6 and 8xyE shift. -/
inductive ShiftSource where
  | vx
  | vy
deriving DecidableEq, Repr

/-- FX1E_FLAG (R7, D7): whether Fx1E writes VF. -/
inductive Fx1eFlag where
  | setClear
  | none
deriving DecidableEq, Repr

/-- LDST_I_INCREMENT (R7, D8): whether Fx55 and Fx65 advance I. -/
inductive LdstIncrement where
  | none
  | xPlusOne
deriving DecidableEq, Repr

/-- KEY_INDEX_POLICY (R7, D11): what Ex9E and ExA1 do when V[x] names no key. -/
inductive KeyIndexPolicy where
  | fault
  | lowNibble
deriving DecidableEq, Repr

/-- FX0A_TRIGGER (R7, D12): the key event that ends the wait of Fx0A. -/
inductive Fx0aTrigger where
  | pressEdge
  | held
  | releaseEdge
deriving DecidableEq, Repr

/-- The parameters of R7, one field each, in the order of the rule's table. -/
structure Params where
  /-- FONT_BASE: the address of the first font byte. -/
  fontBase : Addr
  /-- FONT_DATA: the 16 glyphs of 5 bytes. -/
  fontData : Vector Byte 80
  pcOverflow : PcOverflow
  resetRegs : ResetRegs
  shiftSource : ShiftSource
  fx1eFlag : Fx1eFlag
  ldstIncrement : LdstIncrement
  keyIndexPolicy : KeyIndexPolicy
  fx0aTrigger : Fx0aTrigger
deriving DecidableEq, Repr

/-- The domain R7 gives FONT_BASE: the font ends inside the reserved region. The domains of the other
parameters are their types. -/
abbrev Params.Legal (p : Params) : Prop := p.fontBase.toNat + 79 ≤ 0x1FF

/-- Whether the host's call of this number, where no script gives one, is a tick and not a step: a FREE
VALUE (R243: any sequence of ticks and steps; log 20). -/
opaque Config.freeTick : Nat → Bool

/-- The key vector of that call when it is a step: a FREE VALUE (R34(a), R248: any vector at any step;
log 20). -/
opaque Config.freeKeys : Nat → Vector Bool 16

/-- The random byte of that call when it is a step: a FREE VALUE (R34(b), D24: a free draw under no law;
log 22). -/
opaque Config.freeRnd : Nat → Byte

/-- Which of several qualifying keys Fx0A takes, by the number of host calls taken: a FREE VALUE (R213,
D12: any of them; log 15). -/
opaque Config.freePick : Nat → Nat

end Sys2Proof
end

