-- ==== Sys2Proof/Machine/Params.lean ====
section
/-! DEFINITION. The default value of each parameter (spec/00_scope.md R7; log 1 and the log entry of
each), the font among them (spec/20_memory.md R58; log 11). -/

namespace Sys2Proof

/-- FONT_DATA's default, glyph by glyph from digit 0 to digit F, top row first (R58). PRESUMED: the
widely used font, which the spec itself marks as not in the source (log 11). -/
def Params.defaultFont : Vector Byte 80 :=
  #v[0xF0#8, 0x90#8, 0x90#8, 0x90#8, 0xF0#8, 0x20#8, 0x60#8, 0x20#8, 0x20#8, 0x70#8] ++
  #v[0xF0#8, 0x10#8, 0xF0#8, 0x80#8, 0xF0#8, 0xF0#8, 0x10#8, 0xF0#8, 0x10#8, 0xF0#8] ++
  #v[0x90#8, 0x90#8, 0xF0#8, 0x10#8, 0x10#8, 0xF0#8, 0x80#8, 0xF0#8, 0x10#8, 0xF0#8] ++
  #v[0xF0#8, 0x80#8, 0xF0#8, 0x90#8, 0xF0#8, 0xF0#8, 0x10#8, 0x20#8, 0x40#8, 0x40#8] ++
  #v[0xF0#8, 0x90#8, 0xF0#8, 0x90#8, 0xF0#8, 0xF0#8, 0x90#8, 0xF0#8, 0x10#8, 0xF0#8] ++
  #v[0xF0#8, 0x90#8, 0xF0#8, 0x90#8, 0x90#8, 0xE0#8, 0x90#8, 0xE0#8, 0x90#8, 0xE0#8] ++
  #v[0xF0#8, 0x80#8, 0x80#8, 0x80#8, 0xF0#8, 0xE0#8, 0x90#8, 0x90#8, 0x90#8, 0xE0#8] ++
  #v[0xF0#8, 0x80#8, 0xF0#8, 0x80#8, 0xF0#8, 0xF0#8, 0x80#8, 0xF0#8, 0x80#8, 0x80#8]

/-- The default column of R7. -/
def Params.defaults : Params where
  fontBase := 0x000#12
  fontData := Params.defaultFont
  pcOverflow := .fault
  resetRegs := .zero
  shiftSource := .vx
  fx1eFlag := .setClear
  ldstIncrement := .none
  keyIndexPolicy := .fault
  fx0aTrigger := .pressEdge

end Sys2Proof
end

