-- ==== Sys2Proof/Machine/State.lean ====
section
/-! DEFINITION. The state of the core (spec/10_state.md R20 to R36), the fault taxonomy
(spec/60_exceptions.md R230, R236), and the state after reset (spec/70_reset_and_hazards.md R260). -/

namespace Sys2Proof.Machine

/-- A register that may not have been written since reset: its value, and the mark that an instruction
has written it (R235, R36; log 5). It always holds a value. -/
structure Reg (w : Nat) where
  val : BitVec w
  written : Bool
deriving DecidableEq, Repr

/-- The registers an UnwrittenRead can name (R235). -/
inductive RegName where
  | v (x : Nibble)
  | i
  | dt
  | st
deriving DecidableEq, Repr

/-- The fatal faults of R230, each with its recorded info. None of them stops the model: taking one is
a next state whose status is Faulted (R237; log 16). -/
inductive FaultKind where
  /-- A memory access outside 0..0xFFF; the first address outside (R231). -/
  | outOfRange (addr : Nat)
  /-- CALL with 16 return addresses on the stack (R232). -/
  | stackOverflow
  /-- RET with an empty stack (R233). -/
  | stackUnderflow
  /-- Ex9E or ExA1 with V[x] > 15 under KEY_INDEX_POLICY = fault; the value V[x] (R234). -/
  | keyIndexOutOfRange (v : Byte)
  /-- A read of a register nothing has written, under RESET_REGS = unwritten_faults (R235). -/
  | unwrittenRead (r : RegName)
deriving DecidableEq, Repr

/-- A fault record: the kind with its info, the address of the instruction, and its word when the
fetch succeeded (R236). -/
structure FaultRecord where
  kind : FaultKind
  pc : Word
  word : Option Word
deriving DecidableEq, Repr

/-- The core status (R33(a)). -/
inductive Status where
  | running
  | faulted (record : FaultRecord)
deriving DecidableEq, Repr

/-- The output event UnknownOpcode(pc, w) (R35(c), R75). -/
structure UnknownOpcode where
  pc : Word
  word : Word
deriving DecidableEq, Repr

/-- The key vector (R34(a)) and the key latch (R33(b)). -/
abbrev Keys := Vector Bool 16

/-- The framebuffer, indexed by row and then column (R30). -/
abbrev Grid := Vector (Vector Bool 64) 32

/-- Memory: the bytes that differ from what an unlisted address reads as, by rising address (log 27). -/
abbrev Memory := List Host.Cell

/-- One call of the host (R248, R249). -/
inductive HostCall where
  /-- `step(keys, rnd)`: the key vector and the random byte of this step (R34). -/
  | step (keys : Keys) (rnd : Byte)
  /-- `tick()` (R242). -/
  | tick
deriving DecidableEq, Repr

/-- The machine's state. -/
structure State where
  /-- The parameters of R7: constant, nothing writes them (log 1). -/
  params : Params
  /-- V0..VF (R20). -/
  V : Vector (Reg 8) 16
  /-- The address register (R23). -/
  I : Reg 12
  /-- The program counter (R24). -/
  pc : Word
  /-- The call stack's slots (R25). -/
  stack : Vector Word 16
  /-- The number of occupied slots, 0 to 16 (R25). -/
  sp : Fin 17
  /-- The delay timer (R28). -/
  DT : Reg 8
  /-- The sound timer (R29). -/
  ST : Reg 8
  /-- Memory (R50). -/
  mem : Memory
  /-- The framebuffer (R30). -/
  fb : Grid
  /-- Running or Faulted (R33(a)). -/
  status : Status
  /-- The key latch (R33(b)). -/
  keyPrev : Keys
  /-- The model's own: the key vector of this step (R34(a); log 21). -/
  keys : Keys
  /-- The model's own: the random byte of this step (R34(b); log 22). -/
  rnd : Byte
  /-- The model's own: the host's coming calls as far as a script gives them, oldest first; free ones
  follow (R243; logs 19, 20). -/
  calls : List HostCall
  /-- The model's own: how many host calls have been taken, the argument of the free values (logs 15,
  20, 22). -/
  draws : Nat
  /-- The model's own: the event the last host call emitted, if any (R35(c); log 23). -/
  event : Option UnknownOpcode
deriving DecidableEq, Repr

/-- Why the machine stops without a next state. -/
inductive Fault where
  /-- Raised by `step` alone, when the host calls step on a Faulted VM: a Faulted state has no further
  step and the host must not make the call (R237, R249). Safe: the spec gives it no next state. -/
  | vmFaulted (record : FaultRecord)
deriving DecidableEq, Repr

/-- Why an instruction has no meaning. -/
inductive Refusal where
  /-- An instruction the model gives no meaning, raised by its arm of `exec` alone. Safe. No arm of
  this model raises it. -/
  | notModelled (mnemonic : String)
deriving DecidableEq, Repr

/-- Reset with given parameters: the creation of a new VM, before a program is loaded (R36, R260,
R261). Memory lists nothing: an unlisted address reads as its reset contents. -/
def State.resetWith (p : Params) : State where
  params := p
  V := Vector.replicate 16 { val := 0x00#8, written := false }
  I := { val := 0x000#12, written := false }
  pc := 0x200#16
  stack := Vector.replicate 16 0x0000#16
  sp := 0
  DT := { val := 0x00#8, written := false }
  ST := { val := 0x00#8, written := false }
  mem := []
  fb := Vector.replicate 32 (Vector.replicate 64 false)
  status := .running
  keyPrev := Vector.replicate 16 false
  keys := Vector.replicate 16 false
  rnd := 0x00#8
  calls := []
  draws := 0
  event := none

/-- The machine right after reset, with the default parameters of R7. -/
def State.reset : State := State.resetWith Params.defaults

end Sys2Proof.Machine
end

