-- ==== Sys2Proof/Machine/Ops.lean ====
section
/-! DEFINITION. The named operations over memory, registers, the stack and the pc, and the taking of a
fault.

An operation that can raise answers in `Except FaultKind`; a meaning hands its body to `commit`, which
commits all its writes or takes the fault and commits none (spec/00_scope.md R11; spec/30_encoding.md
R81). There is no return from a fault and no handler (spec/60_exceptions.md R238), so no operation
for one; only reset leaves the Faulted status. -/

namespace Sys2Proof.Machine

/-- What a step answers. -/
abbrev StepOutcome := Host.Outcome State Fault Refusal

/-! ## Memory as data (R50, R57, R58, R261; log 27) -/

/-- What an address not listed reads as: the reset contents, the font at FONT_BASE and zero elsewhere
(R57, R58, R261). -/
def unlistedByte (p : Params) (a : Nat) : Byte :=
  if h : p.fontBase.toNat ≤ a ∧ a < p.fontBase.toNat + 80 then
    p.fontData[a - p.fontBase.toNat]'(by omega)
  else 0x00#8

/-- The listed byte at an address. -/
def memLookup (a : Nat) : Memory → Option Byte
  | [] => none
  | c :: cs => if c.1 = a then some c.2 else memLookup a cs

/-- The list without any entry of an address. -/
def memErase (a : Nat) : Memory → Memory
  | [] => []
  | c :: cs => if c.1 = a then memErase a cs else c :: memErase a cs

/-- The list with an address's entry put in its place. -/
def memInsert (a : Nat) (b : Byte) : Memory → Memory
  | [] => [(a, b)]
  | c :: cs =>
    if a < c.1 then (a, b) :: c :: cs
    else if a = c.1 then (a, b) :: cs
    else c :: memInsert a b cs

/-- The list after a byte is stored: an entry equal to the unlisted byte is not kept. -/
def memSet (p : Params) (a : Nat) (b : Byte) (m : Memory) : Memory :=
  if b = unlistedByte p a then memErase a m else memInsert a b m

/-- The canonical form from an address on: addresses strictly rise and stay below 4096, and no entry
equals the unlisted byte. -/
def memWfFrom (p : Params) : Nat → Memory → Bool
  | _, [] => true
  | lo, c :: cs =>
    decide (lo ≤ c.1) && decide (c.1 < 4096) && (c.2 != unlistedByte p c.1) && memWfFrom p (c.1 + 1) cs

/-- The canonical form of memory. -/
def Memory.wf (p : Params) (m : Memory) : Bool := memWfFrom p 0 m

/-- The byte memory holds at an address, with no range check. -/
def State.byteAt (s : State) (a : Nat) : Byte :=
  (memLookup a s.mem).getD (unlistedByte s.params a)

/-- The state with a byte of memory replaced, with no range check. -/
def State.setByte (s : State) (a : Nat) (b : Byte) : State :=
  { s with mem := memSet s.params a b s.mem }

/-! ## Memory accesses (R51, R52, R53) -/

/-- `MemRead(addr, 1)` (R51). -/
def memRead (a : Nat) (s : State) : Except FaultKind Byte :=
  if a > 0xFFF then .error (.outOfRange a) else .ok (s.byteAt a)

/-- `MemWrite(addr, 1, v)` (R52). -/
def memWrite (a : Nat) (b : Byte) (s : State) : Except FaultKind State :=
  if a > 0xFFF then .error (.outOfRange a) else .ok (s.setByte a b)

/-- `Fetch16(addr)`: the high byte first (R53, R54). -/
def fetch16 (a : Nat) (s : State) : Except FaultKind Word :=
  if a > 0xFFF then .error (.outOfRange a)
  else if a + 1 > 0xFFF then .error (.outOfRange (a + 1))
  else .ok (wordOfBytes (s.byteAt a) (s.byteAt (a + 1)))

/-- The bytes at `n` addresses from `a` on, read in address order (R191). -/
def readBytes (a : Nat) : Nat → State → Except FaultKind (List Byte)
  | 0, _ => .ok []
  | n + 1, s => do
    let b ← memRead a s
    let bs ← readBytes (a + 1) n s
    pure (b :: bs)

/-- Bytes written from `a` on, in address order (R173, R262). -/
def writeBytes (a : Nat) : List Byte → State → Except FaultKind State
  | [], s => .ok s
  | b :: bs, s => do
    let t ← memWrite a b s
    writeBytes (a + 1) bs t

/-! ## Registers (R20, R23, R28, R29) -/

/-- Whether a read of a register is allowed: under RESET_REGS = unwritten_faults, only once an
instruction has written it (R235; log 5). -/
def Reg.readable {w : Nat} (p : Params) (r : Reg w) : Bool :=
  match p.resetRegs with
  | .zero => true
  | .unwrittenFaults => r.written

/-- Read a register by name (R235). -/
def readReg {w : Nat} (p : Params) (name : RegName) (r : Reg w) : Except FaultKind (BitVec w) :=
  if r.readable p then .ok r.val else .error (.unwrittenRead name)

/-- A register as an instruction's write leaves it. -/
def Reg.put {w : Nat} (v : BitVec w) : Reg w := { val := v, written := true }

/-- The register V[x] with its mark. -/
def State.regV (s : State) (x : Nibble) : Reg 8 := s.V[x.toNat]'x.isLt

/-- The value of V[x]. -/
def State.getV (s : State) (x : Nibble) : Byte := (s.regV x).val

/-- `V[x] <- b`. -/
def State.setV (s : State) (x : Nibble) (b : Byte) : State :=
  { s with V := s.V.set x.toNat (Reg.put b) x.isLt }

/-- `I <- a`. -/
def State.setI (s : State) (a : Addr) : State := { s with I := Reg.put a }

/-- `DT <- b`. -/
def State.setDT (s : State) (b : Byte) : State := { s with DT := Reg.put b }

/-- `ST <- b`. -/
def State.setST (s : State) (b : Byte) : State := { s with ST := Reg.put b }

/-- `fb <- g`. -/
def State.setFb (s : State) (g : Grid) : State := { s with fb := g }

/-- Read V[x]. -/
def readV (x : Nibble) (s : State) : Except FaultKind Byte := readReg s.params (.v x) (s.regV x)

/-- Read I. -/
def readI (s : State) : Except FaultKind Addr := readReg s.params .i s.I

/-- Read DT. -/
def readDT (s : State) : Except FaultKind Byte := readReg s.params .dt s.DT

/-! ## The program counter (R24, R80) -/

/-- What a write of `v` leaves in pc: `v`, or `v mod 0x1000` under PC_OVERFLOW = wrap12 (R80). -/
def pcValue (p : Params) (v : Word) : Word :=
  match p.pcOverflow with
  | .fault => v
  | .wrap12 => v % 0x1000#16

/-- `pc <- v` (R80). -/
def State.setPc (s : State) (v : Word) : State := { s with pc := pcValue s.params v }

/-- `pc <- pc + 2` (R80(a)). -/
def State.advance (s : State) : State := s.setPc (s.pc + 2#16)

/-- `pc <- pc + 4` when the condition holds, else `pc <- pc + 2` (R80(b), R124). -/
def State.skipIf (s : State) (c : Bool) : State :=
  s.setPc (if c then s.pc + 4#16 else s.pc + 2#16)

/-! ## The call stack (R25, R26, R27) -/

/-- `Push(v)` (R26). -/
def push (v : Word) (s : State) : Except FaultKind State :=
  if h : s.sp.val < 16 then
    .ok { s with stack := s.stack.set s.sp.val v h, sp := ⟨s.sp.val + 1, by omega⟩ }
  else .error .stackOverflow

/-- `Pop()`: the popped value, and the state after it; the slot keeps its value (R27). -/
def pop (s : State) : Except FaultKind (Word × State) :=
  if s.sp.val = 0 then .error .stackUnderflow
  else
    .ok (s.stack[s.sp.val - 1]'(by have := s.sp.isLt; omega),
      { s with sp := ⟨s.sp.val - 1, by have := s.sp.isLt; omega⟩ })

/-! ## Faults (R236, R237) and the diagnostic (R75) -/

/-- Taking a fatal fault: nothing of the step is kept, and the status becomes Faulted with the record
of R236 (R237). `w` is the instruction's word when the fetch succeeded. -/
def takeFault (k : FaultKind) (w : Option Word) (s : State) : State :=
  { s with status := .faulted { kind := k, pc := s.pc, word := w } }

/-- The end of an instruction's step: all its writes, or the fault and none of them (R11, R81, R237).
The record's word is the instruction's own (log 17). -/
def commit (i : Instr) (s : State) (r : Except FaultKind State) : StepOutcome :=
  match r with
  | .ok t => .next t
  | .error k => .next (takeFault k (some (encode i)) s)

/-- `emit UnknownOpcode(pc, w)` (R75, R35(c)). -/
def State.emitUnknown (s : State) (w : Word) : State :=
  { s with event := some { pc := s.pc, word := w } }

/-- The code of a fault kind (R230; log 17). -/
def FaultKind.code : FaultKind → Nat
  | .outOfRange _ => 1
  | .stackOverflow => 2
  | .stackUnderflow => 3
  | .keyIndexOutOfRange _ => 4
  | .unwrittenRead _ => 5

/-- The code of the UnknownOpcode diagnostic, which is no fault (R230; log 17). -/
def UnknownOpcode.code (_ : UnknownOpcode) : Nat := 16

/-! ## Block transfers between registers and memory (R174, R175) -/

/-- `for k in k .. : MemWrite(a + k, 1, V[k])`, `n` registers from V[k] on (R174; order: log 18). -/
def storeRegs (a k : Nat) : Nat → State → Except FaultKind State
  | 0, s => .ok s
  | n + 1, s => do
    let b ← readV (BitVec.ofNat 4 k) s
    let t ← memWrite (a + k) b s
    storeRegs a (k + 1) n t

/-- `for k in k .. : V[k] <- MemRead(a + k, 1)`, `n` registers from V[k] on (R175). -/
def loadRegs (a k : Nat) : Nat → State → Except FaultKind State
  | 0, s => .ok s
  | n + 1, s => do
    let b ← memRead (a + k) s
    loadRegs a (k + 1) n (s.setV (BitVec.ofNat 4 k) b)

end Sys2Proof.Machine
end

