-- ==== Sys2Proof/Machine/Operands.lean ====
section
/-! DEFINITION. The operand forms: what a field, a register or an input gives an instruction
(spec/30_encoding.md R72, R82; spec/42_register_alu.md R148; spec/43_index_memory.md R171 to R175;
spec/45_keys_timers.md R213, R216, R217). -/

namespace Sys2Proof.Machine

/-- `zext_16(nnn)`, a jump's or call's target (R72). -/
def targetOf (nnn : Addr) : Word := nnn.setWidth 16

/-- `nnn + V[0]`, at most 0x10FE, not truncated (R103). -/
def offsetTarget (nnn : Addr) (v0 : Byte) : Word := nnn.setWidth 16 + v0.setWidth 16

/-- The values of V[x] and V[y], read in that order. -/
def readXY (x y : Nibble) (s : State) : Except FaultKind (Byte × Byte) := do
  let a ← readV x s
  let b ← readV y s
  pure (a, b)

/-- The operand of 8xy6 and 8xyE: V[x], or V[y] under SHIFT_SOURCE = Vy (R148, R150; log 7). -/
def shiftOperand (x y : Nibble) (s : State) : Except FaultKind Byte :=
  match s.params.shiftSource with
  | .vx => readV x s
  | .vy => readV y s

/-- `(I + V[x]) mod 4096` (R171). -/
def indexSum (a : Addr) (v : Byte) : Addr := BitVec.ofNat 12 ((a.toNat + v.toNat) % 4096)

/-- `FONT_BASE + 5 * (V[x] & 0x0F)` (R172). -/
def fontAddress (p : Params) (v : Byte) : Addr :=
  BitVec.ofNat 12 (p.fontBase.toNat + 5 * (v &&& 0x0F#8).toNat)

/-- The hundreds, tens and ones digits of a byte (R173). -/
def decimalDigits (v : Byte) : List Byte :=
  [BitVec.ofNat 8 (v.toNat / 100), BitVec.ofNat 8 (v.toNat / 10 % 10), BitVec.ofNat 8 (v.toNat % 10)]

/-- I after Fx55 or Fx65: unchanged, or `(a + x + 1) mod 4096` (R174, R175; log 10). -/
def State.afterTransfer (s : State) (a : Addr) (x : Nibble) : State :=
  { s with I :=
      match s.params.ldstIncrement with
      | .none => s.I
      | .xPlusOne => Reg.put (BitVec.ofNat 12 ((a.toNat + x.toNat + 1) % 4096)) }

/-- Whether key k is down in a key vector (R34). -/
def keyDown (ks : Keys) (k : Nibble) : Bool := ks[k.toNat]'k.isLt

/-- `KeyIndex(v)` (R217; log 13). -/
def keyIndex (p : Params) (v : Byte) : Except FaultKind Nibble :=
  if v.toNat ≤ 15 then .ok (BitVec.ofNat 4 v.toNat)
  else match p.keyIndexPolicy with
    | .fault => .error (.keyIndexOutOfRange v)
    | .lowNibble => .ok (BitVec.ofNat 4 (v &&& 0x0F#8).toNat)

/-- `KeyEvent(k)` (R216; log 14). -/
def keyEvent (s : State) (k : Nibble) : Bool :=
  match s.params.fx0aTrigger with
  | .pressEdge => keyDown s.keys k && !keyDown s.keyPrev k
  | .held => keyDown s.keys k
  | .releaseEdge => keyDown s.keyPrev k && !keyDown s.keys k

/-- The keys that have a key event at this step, lowest first (R213). -/
def eventKeys (s : State) : List Nibble :=
  ((List.range 16).map (BitVec.ofNat 4)).filter (keyEvent s)

/-- One of the qualifying keys: the only one, or of several the one a free value points at
(R213, D12: any of them; log 15). -/
def pickKey (free : Nat) : List Nibble → Option Nibble
  | [] => none
  | [k] => some k
  | ks => ks[free % ks.length]?

end Sys2Proof.Machine
end

