-- ==== Sys2Proof/Machine/KeysTimers.lean ====
section
/-! DEFINITION. Keyboard and timer instructions (spec/45_keys_timers.md R210 to R217), the host's
`tick` and the sound signal (spec/60_exceptions.md R242, R244). -/

namespace Sys2Proof.Machine

/-- Ex9E: skip if the key numbered V[x] is pressed (R210). -/
def execSkp (x : Nibble) (s : State) : StepOutcome :=
  commit (.skp x) s do
    let v ← readV x s
    let k ← keyIndex s.params v
    pure (s.skipIf (keyDown s.keys k))

/-- ExA1: skip if the key numbered V[x] is not pressed (R211). -/
def execSknp (x : Nibble) (s : State) : StepOutcome :=
  commit (.sknp x) s do
    let v ← readV x s
    let k ← keyIndex s.params v
    pure (s.skipIf (!keyDown s.keys k))

/-- Fx07: `V[x] <- DT` (R212). -/
def execLdVxDt (x : Nibble) (s : State) : StepOutcome :=
  commit (.ldVxDt x) s do
    let d ← readDT s
    pure (s.setV x d).advance

/-- Fx0A: with a key event, load a key number and advance; without one, write nothing and hold pc
(R213, R80(d)). -/
def execLdVxK (x : Nibble) (s : State) : StepOutcome :=
  commit (.ldVxK x) s
    (match pickKey (Config.freePick s.draws) (eventKeys s) with
      | some k => .ok (s.setV x (k.setWidth 8)).advance
      | none => .ok s)

/-- Fx15: `DT <- V[x]` (R214). -/
def execLdDtVx (x : Nibble) (s : State) : StepOutcome :=
  commit (.ldDtVx x) s do
    let v ← readV x s
    pure (s.setDT v).advance

/-- Fx18: `ST <- V[x]` (R215). -/
def execLdStVx (x : Nibble) (s : State) : StepOutcome :=
  commit (.ldStVx x) s do
    let v ← readV x s
    pure (s.setST v).advance

/-- A timer after one tick: one less while nonzero; an unwritten timer is left alone under RESET_REGS
= unwritten_faults (R242, R36). -/
def tickTimer (p : Params) (r : Reg 8) : Reg 8 :=
  if r.readable p ∧ r.val ≠ 0x00#8 then { val := r.val - 0x01#8, written := r.written } else r

/-- `tick()`: both timers; no effect on a Faulted VM (R242). -/
def tick (s : State) : State :=
  match s.status with
  | .faulted _ => s
  | .running => { s with DT := tickTimer s.params s.DT, ST := tickTimer s.params s.ST }

/-- The sound signal, `ST ≠ 0`; false for an unwritten ST under RESET_REGS = unwritten_faults (R29,
R35(b), R36, R244). -/
def State.sound (s : State) : Bool := s.ST.readable s.params && decide (s.ST.val ≠ 0x00#8)

end Sys2Proof.Machine
end

