-- ==== Sys2Proof/Machine/UnknownWords.lean ====
section
/-! DEFINITION. The unknown-opcode space (spec/30_encoding.md R74 to R76): a non-fatal no-op with an
output event. -/

namespace Sys2Proof.Machine

/-- Executing Unknown(w): emit the event, `pc <- pc + 2`, nothing else (R75). -/
def unknownWord (w : Word) (s : State) : State := (s.emitUnknown w).advance

/-- 0nnn SYS: an unknown opcode (R76; log 26). -/
def execSys (nnn : Addr) (s : State) : StepOutcome :=
  commit (.sys nnn) s (.ok (unknownWord (encode (.sys nnn)) s))

/-- A word of the unknown space that has no row of the opcode table (R74(b) to (f), R75). -/
def execUnknown (w : Word) (s : State) : StepOutcome := .next (unknownWord w s)

end Sys2Proof.Machine
end

