-- ==== Sys2Proof/Machine/Cycle.lean ====
section
/-! DEFINITION. One host call around one instruction: the host's inputs, the fetch, the key latch, the
program load (spec/30_encoding.md R79; spec/60_exceptions.md R242, R243, R248, R249;
spec/70_reset_and_hazards.md R262, R263; logs 19, 20, 28). -/

namespace Sys2Proof.Machine

/-- The host's call of this number where none is queued: a tick or a step with any inputs, all of them
free values, so the calls past the queue are any infinite sequence (R243, R248; log 20). -/
def freeCall (n : Nat) : HostCall :=
  if Config.freeTick n then .tick else .step (Config.freeKeys n) (Config.freeRnd n)

/-- The host's next call, the oldest queued or else a free one, and the state with it taken and counted
and the last call's event gone (R243; logs 19, 20). -/
def takeCall (s : State) : HostCall × State :=
  match s.calls with
  | c :: rest => (c, { s with calls := rest, event := none, draws := s.draws + 1 })
  | [] => (freeCall s.draws, { s with event := none, draws := s.draws + 1 })

/-- The inputs of a step as its instruction sees them (R34; logs 21, 22). -/
def supply (keys : Keys) (rnd : Byte) (s : State) : State := { s with keys := keys, rnd := rnd }

/-- Fetch the word at pc, decode it and execute it; a fetch that raises takes its fault with no word
(R79, R236). -/
def fetchAndRun (run : Instr → State → StepOutcome) (s : State) : StepOutcome :=
  match fetch16 s.pc.toNat s with
  | .error k => .next (takeFault k none s)
  | .ok w =>
    match decode w with
    | .ok i => run i s
    | .error _ => execUnknown w s

/-- `key_prev <- keys`, only when nothing was raised (R79). -/
def latchKeys (t : State) : State :=
  match t.status with
  | .running => { t with keyPrev := t.keys }
  | .faulted _ => t

/-- The end of a step: the key latch on a next state. -/
def endStep (o : StepOutcome) : StepOutcome :=
  match o with
  | .next t => .next (latchKeys t)
  | .fault r => .fault r
  | .refused r => .refused r

/-- `step(keys, rnd)`: none from a Faulted state (R79, R237). -/
def coreStep (run : Instr → State → StepOutcome) (keys : Keys) (rnd : Byte) (s : State) : StepOutcome :=
  match s.status with
  | .faulted r => .fault (.vmFaulted r)
  | .running => endStep (fetchAndRun run (supply keys rnd s))

/-- The host's next call, carried out (R243, R249). -/
def hostCall (run : Instr → State → StepOutcome) (s : State) : StepOutcome :=
  match takeCall s with
  | (.tick, t) => .next (tick t)
  | (.step keys rnd, t) => coreStep run keys rnd t

/-! ## Loading a program -/

/-- `load(image)`: the bytes copied verbatim from 0x200 on; an image that passes 0xFFF fails with
OutOfRange at 0x1000, and then nothing is loaded (R262, R263; log 28). The host calls it before the
first step (R248). -/
def loadImage (image : List Byte) (s : State) : Except FaultKind State := writeBytes 0x200 image s

/-- The queue without the ticks before its first step call; with no step call in it, one step call
(log 28). -/
def fromStep (keys : Keys) (rnd : Byte) : List HostCall → List HostCall
  | [] => [.step keys rnd]
  | .tick :: cs => fromStep keys rnd cs
  | .step ks b :: cs => .step ks b :: cs

/-- The state whose very next step runs the word `w`: the word stored where that step fetches, and
what the fetch needs besides (a Running VM, a pc the fetch reaches, a step call next, with the key
vector as it stands and a free random byte where none is queued). From reset only memory and the queue
change (log 28). -/
def placeWord (w : Word) (s : State) : State :=
  let pc := if s.pc.toNat > 0xFFE then 0x200#16 else s.pc
  let t := { s with pc := pc, status := .running, calls := fromStep s.keys (Config.freeRnd s.draws) s.calls }
  (t.setByte pc.toNat (highByte w)).setByte (pc.toNat + 1) (lowByte w)

end Sys2Proof.Machine
end

