-- ==== Sys2Proof/Machine/ControlFlow.lean ====
section
/-! DEFINITION. Control transfer: RET, JP, CALL, JP V0 (spec/40_control_flow.md R100 to R105). -/

namespace Sys2Proof.Machine

/-- 00EE: `pc <- Pop() + 2`; the popped value is the call site (R100). -/
def execRet (s : State) : StepOutcome :=
  commit .ret s do
    let (r, t) ← pop s
    pure (t.setPc (r + 2#16))

/-- 1nnn: `pc <- zext_16(nnn)` (R101). -/
def execJp (nnn : Addr) (s : State) : StepOutcome :=
  commit (.jp nnn) s (.ok (s.setPc (targetOf nnn)))

/-- 2nnn: push the address of this CALL, then jump (R102). -/
def execCall (nnn : Addr) (s : State) : StepOutcome :=
  commit (.call nnn) s do
    let t ← push s.pc s
    pure (t.setPc (targetOf nnn))

/-- Bnnn: `pc <- zext_16(nnn) + V[0]` (R103). -/
def execJpV0 (nnn : Addr) (s : State) : StepOutcome :=
  commit (.jpV0 nnn) s do
    let v0 ← readV 0x0#4 s
    pure (s.setPc (offsetTarget nnn v0))

end Sys2Proof.Machine
end

