-- ==== Sys2Proof/Machine/Flags.lean ====
section
/-! DEFINITION. The values instructions report in VF (spec/10_state.md R21, R31): there is no flags
register. Each is computed on mathematical integers, as the spec writes it. -/

namespace Sys2Proof.Machine

/-- 1 when the condition holds, else 0. -/
def flagByte (c : Bool) : Byte := if c then 0x01#8 else 0x00#8

/-- 8xy4: 1 if the sum exceeds 255 (R146). -/
def carryFlag (a b : Byte) : Byte := flagByte (decide (a.toNat + b.toNat > 255))

/-- 8xy5 and 8xy7: 1 if no borrow occurs, equality included (R147, R149; log 31). -/
def noBorrowFlag (a b : Byte) : Byte := flagByte (decide (a.toNat ≥ b.toNat))

/-- 8xy6: bit 0 of the operand, the bit shifted out (R148). -/
def lowBitFlag (a : Byte) : Byte := flagByte (a.getLsbD 0)

/-- 8xyE: bit 7 of the operand, the bit shifted out (R150). -/
def highBitFlag (a : Byte) : Byte := flagByte (a.getLsbD 7)

/-- Fx1E under FX1E_FLAG = set_clear: 1 if the sum passes 0xFFF (R171). -/
def indexOverflowFlag (a : Addr) (v : Byte) : Byte := flagByte (decide (a.toNat + v.toNat > 0xFFF))

end Sys2Proof.Machine
end

