-- ==== Sys2Proof/Machine/Display.lean ====
section
/-! DEFINITION. The display and the draw algorithm (spec/44_display.md R190 to R194). -/

namespace Sys2Proof.Machine

/-- The framebuffer cell at (row mod 32, column mod 64): coordinates wrap (R192). -/
def pixel (g : Grid) (row col : Nat) : Bool :=
  (g[row % 32]'(Nat.mod_lt _ (by decide)))[col % 64]'(Nat.mod_lt _ (by decide))

/-- The framebuffer with the cell at (row mod 32, column mod 64) replaced. -/
def setPixel (g : Grid) (row col : Nat) (b : Bool) : Grid :=
  g.set (row % 32)
    ((g[row % 32]'(Nat.mod_lt _ (by decide))).set (col % 64) b (Nat.mod_lt _ (by decide)))
    (Nat.mod_lt _ (by decide))

/-- A draw in progress: the framebuffer, and whether an on pixel has been turned off. -/
structure Canvas where
  grid : Grid
  hit : Bool
deriving DecidableEq, Repr

/-- One set bit of a sprite: note a collision, then toggle the cell (R192). -/
def togglePixel (row col : Nat) (d : Canvas) : Canvas :=
  { grid := setPixel d.grid row col (!pixel d.grid row col)
    hit := d.hit || pixel d.grid row col }

/-- The bits of one sprite byte from column offset `8 - n` on; the most significant bit is column
offset 0 (R192). -/
def drawBits (row col : Nat) (b : Byte) : Nat → Canvas → Canvas
  | 0, d => d
  | n + 1, d =>
    drawBits row col b n (if b.getLsbD n then togglePixel row (col + (7 - n)) d else d)

/-- The rows of a sprite, top row first (R192). -/
def drawRows (row col : Nat) : List Byte → Canvas → Canvas
  | [], d => d
  | b :: bs, d => drawRows (row + 1) col bs (drawBits row col b 8 d)

/-- `draw(origin_row, origin_col, bytes)`: the framebuffer after it, and whether there was a
collision; the flag starts at 0 (R192). -/
def draw (row col : Nat) (bytes : List Byte) (g : Grid) : Canvas :=
  drawRows row col bytes { grid := g, hit := false }

/-- The framebuffer with every cell off (R190). -/
def blankGrid : Grid := Vector.replicate 32 (Vector.replicate 64 false)

/-- 00E0: every cell false (R190). -/
def execCls (s : State) : StepOutcome :=
  commit .cls s (.ok (s.setFb blankGrid).advance)

/-- Dxyn: XOR-draw the n bytes at I with origin column V[x] and origin row V[y]; VF = collision
(R191; log 12). The operands are read before VF is written. -/
def execDrw (x y n : Nibble) (s : State) : StepOutcome :=
  commit (.drw x y n) s do
    let (col0, row0) ← readXY x y s
    let a ← readI s
    let sprite ← readBytes a.toNat n.toNat s
    let d := draw row0.toNat col0.toNat sprite s.fb
    pure ((s.setFb d.grid).setV vf (flagByte d.hit)).advance

end Sys2Proof.Machine
end

