-- ==== Sys2Proof/Machine/IndexMemory.lean ====
section
/-! DEFINITION. The address register and memory transfers (spec/43_index_memory.md R170 to R175). -/

namespace Sys2Proof.Machine

/-- Annn: `I <- nnn` (R170). -/
def execLdINnn (nnn : Addr) (s : State) : StepOutcome :=
  commit (.ldINnn nnn) s (.ok (s.setI nnn).advance)

/-- VF after Fx1E: the overflow flag, or unchanged under FX1E_FLAG = none (R171; log 9). -/
def State.indexFlag (s : State) (a : Addr) (v : Byte) : State :=
  match s.params.fx1eFlag with
  | .setClear => s.setV vf (indexOverflowFlag a v)
  | .none => s

/-- Fx1E: `I <- (I + V[x]) mod 4096`, VF by FX1E_FLAG (R171). -/
def execAddIVx (x : Nibble) (s : State) : StepOutcome :=
  commit (.addIVx x) s do
    let a ← readI s
    let v ← readV x s
    pure ((s.setI (indexSum a v)).indexFlag a v).advance

/-- Fx29: `I <- FONT_BASE + 5 * (V[x] & 0x0F)` (R172). -/
def execLdFVx (x : Nibble) (s : State) : StepOutcome :=
  commit (.ldFVx x) s do
    let v ← readV x s
    pure (s.setI (fontAddress s.params v)).advance

/-- Fx33: the three decimal digits of V[x] at I, I + 1 and I + 2 (R173). -/
def execLdBVx (x : Nibble) (s : State) : StepOutcome :=
  commit (.ldBVx x) s do
    let v ← readV x s
    let a ← readI s
    let t ← writeBytes a.toNat (decimalDigits v) s
    pure t.advance

/-- Fx55: V[0] to V[x] stored from I on (R174). -/
def execLdMemVx (x : Nibble) (s : State) : StepOutcome :=
  commit (.ldMemVx x) s do
    let a ← readI s
    let t ← storeRegs a.toNat 0 (x.toNat + 1) s
    pure (t.afterTransfer a x).advance

/-- Fx65: V[0] to V[x] loaded from I on (R175). -/
def execLdVxMem (x : Nibble) (s : State) : StepOutcome :=
  commit (.ldVxMem x) s do
    let a ← readI s
    let t ← loadRegs a.toNat 0 (x.toNat + 1) s
    pure (t.afterTransfer a x).advance

end Sys2Proof.Machine
end

