-- ==== Sys2Proof/Machine/RegisterAlu.lean ====
section
/-! DEFINITION. Register loads and arithmetic (spec/42_register_alu.md R140 to R152). Where an
instruction writes both V[x] and VF, the result is written first and the flag second, so with x = F
the flag is VF's final value (R21, D4; log 6). -/

namespace Sys2Proof.Machine

/-- 6xkk: `V[x] <- kk` (R140). -/
def execLdVxKk (x : Nibble) (kk : Byte) (s : State) : StepOutcome :=
  commit (.ldVxKk x kk) s (.ok (s.setV x kk).advance)

/-- 7xkk: `V[x] <- (V[x] + kk) mod 256`, no flag (R141). -/
def execAddVxKk (x : Nibble) (kk : Byte) (s : State) : StepOutcome :=
  commit (.addVxKk x kk) s do
    let a ← readV x s
    pure (s.setV x (a + kk)).advance

/-- 8xy0: `V[x] <- V[y]` (R142). -/
def execLdVxVy (x y : Nibble) (s : State) : StepOutcome :=
  commit (.ldVxVy x y) s do
    let b ← readV y s
    pure (s.setV x b).advance

/-- 8xy1: `V[x] <- V[x] | V[y]`, no flag (R143; log 8). -/
def execOrVxVy (x y : Nibble) (s : State) : StepOutcome :=
  commit (.orVxVy x y) s do
    let (a, b) ← readXY x y s
    pure (s.setV x (a ||| b)).advance

/-- 8xy2: `V[x] <- V[x] & V[y]`, no flag (R144; log 8). -/
def execAndVxVy (x y : Nibble) (s : State) : StepOutcome :=
  commit (.andVxVy x y) s do
    let (a, b) ← readXY x y s
    pure (s.setV x (a &&& b)).advance

/-- 8xy3: `V[x] <- V[x] ^ V[y]`, no flag (R145; log 8). -/
def execXorVxVy (x y : Nibble) (s : State) : StepOutcome :=
  commit (.xorVxVy x y) s do
    let (a, b) ← readXY x y s
    pure (s.setV x (a ^^^ b)).advance

/-- 8xy4: add, VF = carry (R146). -/
def execAddVxVy (x y : Nibble) (s : State) : StepOutcome :=
  commit (.addVxVy x y) s do
    let (a, b) ← readXY x y s
    pure ((s.setV x (a + b)).setV vf (carryFlag a b)).advance

/-- 8xy5: `V[x] - V[y]`, VF = no borrow (R147). -/
def execSub (x y : Nibble) (s : State) : StepOutcome :=
  commit (.sub x y) s do
    let (a, b) ← readXY x y s
    pure ((s.setV x (a - b)).setV vf (noBorrowFlag a b)).advance

/-- 8xy6: shift right by one, VF = the bit shifted out (R148). -/
def execShr (x y : Nibble) (s : State) : StepOutcome :=
  commit (.shr x y) s do
    let a ← shiftOperand x y s
    pure ((s.setV x (a >>> 1)).setV vf (lowBitFlag a)).advance

/-- 8xy7: `V[y] - V[x]`, VF = no borrow (R149). -/
def execSubn (x y : Nibble) (s : State) : StepOutcome :=
  commit (.subn x y) s do
    let (a, b) ← readXY x y s
    pure ((s.setV x (b - a)).setV vf (noBorrowFlag b a)).advance

/-- 8xyE: shift left by one, VF = the bit shifted out (R150). -/
def execShl (x y : Nibble) (s : State) : StepOutcome :=
  commit (.shl x y) s do
    let a ← shiftOperand x y s
    pure ((s.setV x (a <<< 1)).setV vf (highBitFlag a)).advance

/-- Cxkk: `V[x] <- rnd & kk`, with this step's random byte (R151; log 22). -/
def execRnd (x : Nibble) (kk : Byte) (s : State) : StepOutcome :=
  commit (.rnd x kk) s (.ok (s.setV x (s.rnd &&& kk)).advance)

end Sys2Proof.Machine
end

