-- ==== Sys2Proof/Machine/Skips.lean ====
section
/-! DEFINITION. Conditional skips on register values (spec/41_skips.md R120 to R124). -/

namespace Sys2Proof.Machine

/-- 3xkk: skip if V[x] = kk (R120). -/
def execSeVxKk (x : Nibble) (kk : Byte) (s : State) : StepOutcome :=
  commit (.seVxKk x kk) s do
    let a ← readV x s
    pure (s.skipIf (decide (a = kk)))

/-- 4xkk: skip if V[x] ≠ kk (R121). -/
def execSneVxKk (x : Nibble) (kk : Byte) (s : State) : StepOutcome :=
  commit (.sneVxKk x kk) s do
    let a ← readV x s
    pure (s.skipIf (decide (a ≠ kk)))

/-- 5xy0: skip if V[x] = V[y] (R122). -/
def execSeVxVy (x y : Nibble) (s : State) : StepOutcome :=
  commit (.seVxVy x y) s do
    let (a, b) ← readXY x y s
    pure (s.skipIf (decide (a = b)))

/-- 9xy0: skip if V[x] ≠ V[y] (R123). -/
def execSneVxVy (x y : Nibble) (s : State) : StepOutcome :=
  commit (.sneVxVy x y) s do
    let (a, b) ← readXY x y s
    pure (s.skipIf (decide (a ≠ b)))

end Sys2Proof.Machine
end

