-- ==== Sys2Proof/Machine/Step.lean ====
section
/-! DEFINITION. One step of the model: the host's next call (spec/60_exceptions.md R243, R249), which
is a tick of the timers or one step of the core (spec/30_encoding.md R79). -/

namespace Sys2Proof.Machine

/-- The next host call, carried out with the instructions' meanings. -/
def step (s : State) : Host.Outcome State Fault Refusal := hostCall exec s

/-- The state in which the next step fetches and runs the instruction whose table bits are `w`
(log 28). -/
def State.withFetchWord (s : State) (nbits w : Nat) : State := placeWord (tableWord nbits w) s

end Sys2Proof.Machine
end

