-- ==== Sys2Proof/Safety.lean ====
section
/-! DEFINITION. What statements are said in: which reads are allowed, what an instruction leaves as it
was, how a run ends, and the invariant. -/

namespace Sys2Proof.Machine

/-! ## Readable operands (spec/60_exceptions.md R235) -/

/-- V[x] can be read: always under RESET_REGS = zero, once written under unwritten_faults. -/
abbrev State.CanReadV (s : State) (x : Nibble) : Prop := (s.regV x).readable s.params = true

/-- I can be read. -/
abbrev State.CanReadI (s : State) : Prop := s.I.readable s.params = true

/-- DT can be read. -/
abbrev State.CanReadDT (s : State) : Prop := s.DT.readable s.params = true

/-- Whether a register, by its name, can be read. -/
def State.canRead (s : State) : RegName → Bool
  | .v x => (s.regV x).readable s.params
  | .i => s.I.readable s.params
  | .dt => s.DT.readable s.params
  | .st => s.ST.readable s.params

/-- The registers an instruction reads as operands, in the order its rule's pseudocode does (R82, R235;
log 18). -/
def operandRegs (p : Params) : Instr → List RegName
  | .cls | .ret | .sys _ | .jp _ | .call _ => []
  | .seVxKk x _ | .sneVxKk x _ | .addVxKk x _ => [.v x]
  | .seVxVy x y | .sneVxVy x y => [.v x, .v y]
  | .ldVxKk _ _ | .rnd _ _ | .ldINnn _ | .ldVxK _ => []
  | .ldVxVy _ y => [.v y]
  | .orVxVy x y | .andVxVy x y | .xorVxVy x y | .addVxVy x y | .sub x y | .subn x y => [.v x, .v y]
  | .shr x y | .shl x y => [.v (match p.shiftSource with | .vx => x | .vy => y)]
  | .jpV0 _ => [.v 0x0#4]
  | .drw x y _ => [.v x, .v y, .i]
  | .skp x | .sknp x | .ldDtVx x | .ldStVx x | .ldFVx x => [.v x]
  | .ldVxDt _ => [.dt]
  | .addIVx x => [.i, .v x]
  | .ldBVx x => [.v x, .i]
  | .ldMemVx x => .i :: (List.range (x.toNat + 1)).map fun k => .v (BitVec.ofNat 4 k)
  | .ldVxMem _ => [.i]

/-- The first operand register of an instruction that can not be read. -/
def firstUnread (i : Instr) (s : State) : Option RegName :=
  (operandRegs s.params i).find? fun r => !s.canRead r

/-! ## Frames (spec/00_scope.md R12) -/

/-- Every byte of memory reads as before. -/
def SameMemory (s t : State) : Prop := ∀ a, t.byteAt a = s.byteAt a

/-- Every byte of memory outside `[a, a + n)` reads as before. -/
def SameMemoryOutside (a n : Nat) (s t : State) : Prop :=
  ∀ b, b < a ∨ a + n ≤ b → t.byteAt b = s.byteAt b

/-- Every general register outside the list is as before. -/
def SameRegsBut (xs : List Nibble) (s t : State) : Prop := ∀ r, r ∉ xs → t.regV r = s.regV r

/-- Only the listed general registers and pc may have changed: nothing else of the state has, and no
byte of memory. -/
def OnlyRegsAndPc (xs : List Nibble) (s t : State) : Prop :=
  SameRegsBut xs s t ∧ SameMemory s t ∧ t = { s with V := t.V, pc := t.pc }

/-- Only pc may have changed. -/
def OnlyPc (s t : State) : Prop := SameMemory s t ∧ t = { s with pc := t.pc }

/-- The state after an instruction's step that raises: the fault record names this instruction, and
nothing else has changed (R236, R237). -/
def faultedBy (i : Instr) (k : FaultKind) (s : State) : State :=
  { s with status := .faulted { kind := k, pc := s.pc, word := some (encode i) } }

/-- The state an instruction of this step sees: the host's call taken and counted, its inputs in place
(R34). -/
def delivered (s : State) (rest : List HostCall) (keys : Keys) (rnd : Byte) : State :=
  { s with calls := rest, event := none, keys := keys, rnd := rnd, draws := s.draws + 1 }

/-- An outcome with its next state mapped. -/
def mapNext (f : State → State) : StepOutcome → StepOutcome
  | .next t => .next (f t)
  | .fault r => .fault r
  | .refused r => .refused r

/-! ## The display (spec/44_display.md R193) -/

/-- Some set bit of the sprite drawn at (row, col) maps to the cell (r, c). -/
def SpriteCovers (row col : Nat) (bytes : List Byte) (r c : Nat) : Prop :=
  ∃ dr dc, ∃ h : dr < bytes.length, dc < 8 ∧ bytes[dr].getLsbD (7 - dc) = true ∧
    r = (row + dr) % 32 ∧ c = (col + dc) % 64

/-! ## The end of a run (spec/70_reset_and_hazards.md R266) -/

/-- The run has ended badly: a step has raised a fatal fault (R266(a)). A safe run never does. -/
abbrev State.EndedBadly (s : State) : Prop := s.status ≠ .running

/-- The run has ended normally: Running, and the next instruction is a jump to itself (R266(b)). -/
abbrev State.EndedNormally (s : State) : Prop :=
  s.status = .running ∧ fetch16 s.pc.toNat s = .ok (0x1000#16 ||| s.pc)

/-! ## The invariant -/

/-- What every state of a run meets. -/
structure State.Inv (s : State) : Prop where
  /-- FONT_BASE is in the domain of R7. -/
  params : s.params.Legal
  /-- Memory is in its canonical form: addresses rise and stay below 4096 (R50). -/
  memory : Memory.wf s.params s.mem = true
  /-- No instruction leaves a pc above 0x10FE (R24, R103). -/
  pc : s.pc.toNat ≤ 0x10FE
  /-- Every stack slot holds 0 or a call site, so at most 0xFFE (R25; D2). -/
  slots : ∀ j (h : j < 16), (s.stack[j]).toNat ≤ 0xFFE
  /-- A register no instruction has written still holds its reset value (R36; log 4). -/
  unwritten : (∀ x, (s.regV x).written = false → s.getV x = 0x00#8) ∧
    (s.I.written = false → s.I.val = 0x000#12) ∧ (s.DT.written = false → s.DT.val = 0x00#8) ∧
    (s.ST.written = false → s.ST.val = 0x00#8)
  /-- A fault record names the faulting instruction: its address, and its word unless the fetch itself
  raised (R236, R237). -/
  precise : ∀ r, s.status = .faulted r → r.pc = s.pc ∧
    (match r.word with
      | some w => fetch16 s.pc.toNat s = .ok w
      | none => fetch16 s.pc.toNat s = .error r.kind)

end Sys2Proof.Machine
end

