-- ==== Sys2Proof/Certificates/Slice0/Obligations.lean ====
section
/-! DEFINITION. The statements for the provers, from the numbered rules of spec/. Each docstring names
the rule it formalises. A write of pc is stated through `pcValue`, which `PcWritesFollowThePolicy`
pins to R80. A statement with a premise `CanReadV`, `CanReadI` or `CanReadDT` covers every state under
RESET_REGS = zero; the other states are those of `UnwrittenOperandsFault`. -/

open Sys2Proof Sys2Proof.Machine

/-! ## Encoding -/

/-- R70, R73, R77: decoding the word of a well-formed instruction gives it back with every operand, and
so does decoding its bytes, whatever bytes follow. -/
def Obligations.DecodeOfEncodeIsTheInstruction : Prop :=
  ∀ (i : Instr) (rest : List Byte), i.WellFormed →
    decode (encode i) = .ok i ∧ decodeBytes (encodeBytes i ++ rest) = .ok (i, rest)

/-- R73: each word has one meaning: an instruction the decoder reads is well formed, and encodes to the
word it was read from. -/
def Obligations.EncodeOfDecodeIsTheWord : Prop :=
  ∀ (w : Word) (i : Instr), decode w = .ok i → i.WellFormed ∧ encode i = w

/-- R73: a word with the fixed bits of a row (SYS apart, whose row excludes CLS and RET) decodes to an
instruction of that row, so no two rows match one word. -/
def Obligations.MatchingWordDecodesToItsRow : Prop :=
  ∀ (w : Word) (i : Instr), (∀ nnn, i ≠ .sys nnn) → w &&& (rowBits i).1 = (rowBits i).2 →
    ∃ j, decode w = .ok j ∧ rowBits j = rowBits i

/-- R73, R76: the rejected words, named in the rejection, are those R74(b) to (f) infers from R73; the
op = 0 words of R74(a) decode to SYS; every other word decodes. -/
def Obligations.UnknownWordsAreTheListedOnes : Prop :=
  ∀ w : Word,
    ((∃ i, decode w = .ok i) ∨ decode w = .error (.unknownOpcode w)) ∧
    (decode w = .error (.unknownOpcode w) ↔
      (w.toNat / 0x1000 = 0x5 ∧ w.toNat % 0x10 ≠ 0) ∨
      (w.toNat / 0x1000 = 0x8 ∧ w.toNat % 0x10 ∈ [0x8, 0x9, 0xA, 0xB, 0xC, 0xD, 0xF]) ∨
      (w.toNat / 0x1000 = 0x9 ∧ w.toNat % 0x10 ≠ 0) ∨
      (w.toNat / 0x1000 = 0xE ∧ w.toNat % 0x100 ∉ [0x9E, 0xA1]) ∨
      (w.toNat / 0x1000 = 0xF ∧
        w.toNat % 0x100 ∉ [0x07, 0x0A, 0x15, 0x18, 0x1E, 0x29, 0x33, 0x55, 0x65])) ∧
    (w.toNat / 0x1000 = 0 → w ≠ 0x00E0#16 → w ≠ 0x00EE#16 →
      ∃ nnn : Addr, nnn.toNat = w.toNat ∧ decode w = .ok (.sys nnn))

/-- R73, the patterns written out: one word of each family decodes to its instruction. -/
def Obligations.SampleWordsDecode : Prop :=
  decode 0x00EE#16 = .ok .ret ∧ decode 0x2ABC#16 = .ok (.call 0xABC#12) ∧
  decode 0x3A42#16 = .ok (.seVxKk 0xA#4 0x42#8) ∧ decode 0x9120#16 = .ok (.sneVxVy 0x1#4 0x2#4) ∧
  decode 0x8127#16 = .ok (.subn 0x1#4 0x2#4) ∧ decode 0xC30F#16 = .ok (.rnd 0x3#4 0x0F#8) ∧
  decode 0xF255#16 = .ok (.ldMemVx 0x2#4) ∧ decode 0xD125#16 = .ok (.drw 0x1#4 0x2#4 0x5#4) ∧
  decode 0xE2A1#16 = .ok (.sknp 0x2#4) ∧ decode 0xF50A#16 = .ok (.ldVxK 0x5#4) ∧
  decode 0x0123#16 = .ok (.sys 0x123#12) ∧ decode 0x5001#16 = .error (.unknownOpcode 0x5001#16)

/-! ## Memory -/

/-- R51, R52, R53: the range checks of the three memory primitives, the value a read and a fetch give
(the byte at the lower address is the most significant), and what a write changes. -/
def Obligations.MemoryPrimitives : Prop :=
  ∀ (a : Nat) (s : State) (v : Byte),
    (a > 0xFFF → memRead a s = .error (.outOfRange a) ∧ memWrite a v s = .error (.outOfRange a) ∧
      fetch16 a s = .error (.outOfRange a)) ∧
    (a ≤ 0xFFF → memRead a s = .ok (s.byteAt a) ∧
      ∃ t, memWrite a v s = .ok t ∧ t.byteAt a = v ∧ SameMemoryOutside a 1 s t ∧
        t = { s with mem := t.mem }) ∧
    (a = 0xFFF → fetch16 a s = .error (.outOfRange 0x1000)) ∧
    (a < 0xFFF → ∃ w, fetch16 a s = .ok w ∧
      w.toNat = (s.byteAt a).toNat * 256 + (s.byteAt (a + 1)).toNat)

/-- The inference the spec draws in R54's last sentence and R63 from R53, R60 and R174: after an Fx55
whose operands can be read and whose stores stay inside memory, a fetch from the stored bytes reads
them, the byte at the lower address as the high byte of the word. -/
def Obligations.StoredBytesAreFetchedAsCode : Prop :=
  ∀ (x : Nibble) (s t : State) (k : Nat), s.CanReadI → (∀ r, r ≤ x → s.CanReadV r) →
    s.I.val.toNat + x.toNat ≤ 0xFFF → k + 1 ≤ x.toNat → exec (.ldMemVx x) s = .next t →
    ∃ w, fetch16 (s.I.val.toNat + k) t = .ok w ∧
      highByte w = s.getV (BitVec.ofNat 4 k) ∧ lowByte w = s.getV (BitVec.ofNat 4 (k + 1))

/-! ## The step and the host -/

/-- R79: in a Running state, when the host calls step and the word at pc decodes, the step is that
instruction's execution on the state with the host's inputs in place, followed by the key latch when
nothing was raised. -/
def Obligations.StepRunsTheDecodedInstruction : Prop :=
  ∀ (s : State) (keys : Keys) (rnd : Byte) (rest : List HostCall) (w : Word) (i : Instr),
    s.status = .running → s.calls = .step keys rnd :: rest →
    fetch16 s.pc.toNat s = .ok w → decode w = .ok i →
    step s = mapNext (fun t => if t.status = .running then { t with keyPrev := t.keys } else t)
      (exec i (delivered s rest keys rnd))

/-- The model's choice of form for a host call that no script gives (logs 20, 22): with no call queued,
the step is the one of a free call, a tick or a step with a free key vector and a free random byte; and
taking it counts it, so that the calls past the queue are the free calls one after another. -/
def Obligations.UnscriptedStepIsAFreeCall : Prop :=
  ∀ s : State, s.calls = [] →
    step s = step { s with calls := [freeCall s.draws] } ∧
    (freeCall s.draws = .tick ∨
      freeCall s.draws = .step (Config.freeKeys s.draws) (Config.freeRnd s.draws)) ∧
    ∀ t, step s = .next t → t.calls = [] ∧ t.draws = s.draws + 1

/-- R79, R33(b): a completed step leaves the key vector it saw in the latch; a step that raised leaves
the latch as it was (R237). -/
def Obligations.StepLatchesTheKeys : Prop :=
  ∀ (s t : State) (keys : Keys) (rnd : Byte) (rest : List HostCall),
    s.calls = .step keys rnd :: rest → step s = .next t →
    (t.status = .running → t.keyPrev = keys) ∧ (t.status ≠ .running → t.keyPrev = s.keyPrev)

/-- R75: a word of the unknown space is a non-fatal no-op with an event: pc advances by 2, the status
stays Running, and beside the inputs and the latch of a completed step nothing else changes. -/
def Obligations.UnknownWordStep : Prop :=
  ∀ (s : State) (keys : Keys) (rnd : Byte) (rest : List HostCall) (w : Word),
    s.status = .running → s.calls = .step keys rnd :: rest →
    fetch16 s.pc.toNat s = .ok w → decode w = .error (.unknownOpcode w) →
    step s = .next { delivered s rest keys rnd with
      event := some { pc := s.pc, word := w }
      pc := pcValue s.params (s.pc + 2#16)
      keyPrev := keys }

/-- R79, R231, R237: a fetch from a pc above 0xFFE takes OutOfRange at pc, or at 0x1000 when pc is
0xFFF; the record holds no word and the latch is not written. -/
def Obligations.FetchPastTheTopFaults : Prop :=
  ∀ (s : State) (keys : Keys) (rnd : Byte) (rest : List HostCall),
    s.status = .running → s.calls = .step keys rnd :: rest → s.pc.toNat > 0xFFE →
    step s = .next { delivered s rest keys rnd with
      status := .faulted
        { kind := .outOfRange (if s.pc.toNat > 0xFFF then s.pc.toNat else 0x1000)
          pc := s.pc
          word := none } }

/-- R242: a tick takes 1 from each timer while it is nonzero and changes nothing else of the machine, and
it leaves a Faulted VM as it was. R36, by the spec's decision D3 and with the model's written marks
(log 5): under RESET_REGS = unwritten_faults it leaves a timer nothing has written. The model's own
fields are the model's choice: the call is taken off the queue and counted (logs 19, 20) and the last
call's event is cleared (log 23). -/
def Obligations.TickCountsTheTimersDown : Prop :=
  ∀ (s : State) (rest : List HostCall), s.calls = .tick :: rest →
    ∃ t, step s = .next t ∧
      t = { s with calls := rest, event := none, draws := s.draws + 1, DT := t.DT, ST := t.ST } ∧
      (s.status = .running →
        (s.DT.readable s.params = true → t.DT.val.toNat = s.DT.val.toNat - 1) ∧
        (s.DT.readable s.params = false → t.DT = s.DT) ∧
        (s.ST.readable s.params = true → t.ST.val.toNat = s.ST.val.toNat - 1) ∧
        (s.ST.readable s.params = false → t.ST = s.ST) ∧
        t.DT.written = s.DT.written ∧ t.ST.written = s.ST.written) ∧
      (s.status ≠ .running → t.DT = s.DT ∧ t.ST = s.ST)

/-- R237, R79, R249: a Faulted state has no step: the host's step call answers the terminal fault with
the record, whatever the inputs. The second clause is the model's choice (log 20): with no call queued
the free call is a step call, so answered, or a tick, which leaves the VM as it was (beside the event
and the count of calls). -/
def Obligations.FaultedVmHasNoStep : Prop :=
  ∀ (s : State) (r : FaultRecord), s.status = .faulted r →
    (∀ (keys : Keys) (rnd : Byte) (rest : List HostCall), s.calls = .step keys rnd :: rest →
      step s = .fault (.vmFaulted r)) ∧
    (s.calls = [] → step s = .fault (.vmFaulted r) ∨
      step s = .next { s with event := none, draws := s.draws + 1 })

/-- R73, R79, R237: the model never refuses, and the only way a step has no next state is a Faulted VM:
every word, every register value and every input has a next state from a Running VM. -/
def Obligations.StepNeverRefuses : Prop :=
  ∀ s : State, (∃ t, step s = .next t) ∨
    ∃ r, s.status = .faulted r ∧ step s = .fault (.vmFaulted r)

/-- R80: what a write of pc leaves: the value itself under PC_OVERFLOW = fault, the value mod 0x1000
under wrap12. -/
def Obligations.PcWritesFollowThePolicy : Prop :=
  ∀ (p : Params) (v : Word),
    (p.pcOverflow = .fault → pcValue p v = v) ∧
    (p.pcOverflow = .wrap12 → (pcValue p v).toNat = v.toNat % 0x1000)

/-! ## The invariant, reset and the load -/

/-- R36, R260: reset meets the invariant, for every choice of parameters in the domain of R7, the
defaults among them. -/
def Obligations.ResetMeetsTheInvariant : Prop :=
  (∀ p : Params, p.Legal → (State.resetWith p).Inv) ∧ State.reset.Inv

/-- Every step keeps the invariant: memory stays canonical and inside 0..0xFFF (R50), pc stays at most
0x10FE and stack slots at most 0xFFE (R24, R25), a register nothing has written keeps its reset value
(R36, log 4), and a fault record names the instruction that raised (R236, R237). -/
def Obligations.StepKeepsTheInvariant : Prop :=
  ∀ s t : State, s.Inv → step s = .next t → t.Inv

/-- R7: the parameters are constant: no step changes them. -/
def Obligations.StepKeepsTheParameters : Prop :=
  ∀ s t : State, step s = .next t → t.params = s.params

/-- R36, R264: what the source states of reset, for every choice of parameters: pc, the empty stack and
the clear screen; and the status of a VM that can step. The reset of the model's interface is the one
with the default parameters. -/
def Obligations.ResetStatedValues : Prop :=
  State.reset = State.resetWith Params.defaults ∧
  ∀ p : Params, (State.resetWith p).params = p ∧ (State.resetWith p).pc = 0x200#16 ∧
    (State.resetWith p).sp = 0 ∧ (∀ r c, pixel (State.resetWith p).fb r c = false) ∧
    (State.resetWith p).status = .running

/-- The reset values the source does not state, for every choice of parameters (R36 by decisions D3 and
D27, the spec's own; logs 4 and 24): general registers, I and the timers 0 and unwritten, stack slots
0, the key latch all false. -/
def Obligations.ResetChosenValues : Prop :=
  ∀ p : Params,
    (∀ x, (State.resetWith p).regV x = { val := 0x00#8, written := false }) ∧
    (State.resetWith p).I = { val := 0x000#12, written := false } ∧
    (State.resetWith p).DT = { val := 0x00#8, written := false } ∧
    (State.resetWith p).ST = { val := 0x00#8, written := false } ∧
    (∀ j (h : j < 16), (State.resetWith p).stack[j] = 0x0000#16) ∧
    (∀ k, keyDown (State.resetWith p).keyPrev k = false)

/-- R261: memory at reset, for every choice of parameters: the font at FONT_BASE, zero elsewhere. -/
def Obligations.ResetMemoryIsFontAndZero : Prop :=
  ∀ (p : Params),
    (∀ j (h : j < 80), (State.resetWith p).byteAt (p.fontBase.toNat + j) = p.fontData[j]) ∧
    (∀ a, a < p.fontBase.toNat ∨ p.fontBase.toNat + 80 ≤ a → (State.resetWith p).byteAt a = 0x00#8)

/-- R262, R263: loading an image of at most 3,584 bytes after reset copies it to 0x200 on, leaves every
byte outside it as reset left it, the font and the zero bytes past the image among them, and changes
nothing but memory; a longer one fails with OutOfRange at 0x1000. -/
def Obligations.LoadCopiesTheImage : Prop :=
  ∀ (p : Params) (image : List Byte), p.Legal →
    (image.length ≤ 3584 → ∃ t, loadImage image (State.resetWith p) = .ok t ∧
      t = { State.resetWith p with mem := t.mem } ∧
      (∀ j (h : j < image.length), t.byteAt (0x200 + j) = image[j]) ∧
      SameMemoryOutside 0x200 image.length (State.resetWith p) t ∧
      (∀ a, 0x200 + image.length ≤ a → t.byteAt a = 0x00#8) ∧
      (∀ j (h : j < 80), t.byteAt (p.fontBase.toNat + j) = p.fontData[j])) ∧
    (image.length > 3584 →
      loadImage image (State.resetWith p) = .error (.outOfRange 0x1000))

/-! ## Rules over every instruction -/

/-- R81, R236, R237: an instruction's step always answers a next state; either its status is as before,
or it raised: then the record names the instruction and nothing else of the state has changed. -/
def Obligations.InstructionCommitsOrFaults : Prop :=
  ∀ (i : Instr) (s : State), ∃ t, exec i s = .next t ∧
    (t.status = s.status ∨ ∃ k, t = faultedBy i k s)

/-- R230 to R235, R239: which instruction raises which fault, with its info: OutOfRange at 0x1000 by
Dxyn, Fx33, Fx55 and Fx65, StackOverflow by 2nnn with a full stack, StackUnderflow by 00EE with an empty
one, KeyIndexOutOfRange of a V[x] above 15 by Ex9E and ExA1 under KEY_INDEX_POLICY = fault, and, under
RESET_REGS = unwritten_faults, UnwrittenRead of the first operand register that can not be read. -/
def Obligations.FaultKindsByInstruction : Prop :=
  ∀ (i : Instr) (s t : State) (rec : FaultRecord), s.status = .running → exec i s = .next t →
    t.status = .faulted rec →
    match rec.kind with
    | .outOfRange a => a = 0x1000 ∧
        ((∃ x y n, i = .drw x y n) ∨ (∃ x, i = .ldBVx x ∨ i = .ldMemVx x ∨ i = .ldVxMem x))
    | .stackOverflow => s.sp.val = 16 ∧ ∃ nnn, i = .call nnn
    | .stackUnderflow => s.sp.val = 0 ∧ i = .ret
    | .keyIndexOutOfRange v => s.params.keyIndexPolicy = .fault ∧ v.toNat > 15 ∧
        ∃ x, (i = .skp x ∨ i = .sknp x) ∧ v = s.getV x
    | .unwrittenRead r => s.params.resetRegs = .unwrittenFaults ∧ firstUnread i s = some r

/-- R235: under RESET_REGS = unwritten_faults, an instruction whose register operand nothing has
written raises UnwrittenRead naming it: V[x], V[y], V[0], I or DT, the first one read; Fx55 names the
lowest such register of V[0] to V[x], when the stores before it stay inside memory (log 18). -/
def Obligations.UnwrittenOperandsFault : Prop :=
  ∀ (s : State) (x y n : Nibble) (kk : Byte) (nnn : Addr),
    (¬ s.CanReadV x →
      ∀ i ∈ [Instr.seVxKk x kk, .sneVxKk x kk, .seVxVy x y, .sneVxVy x y, .addVxKk x kk,
        .ldVxVy y x, .orVxVy x y, .andVxVy x y, .xorVxVy x y, .addVxVy x y, .sub x y, .subn x y,
        .drw x y n, .skp x, .sknp x, .ldDtVx x, .ldStVx x, .ldFVx x, .ldBVx x],
      exec i s = .next (faultedBy i (.unwrittenRead (.v x)) s)) ∧
    (s.CanReadV x → ¬ s.CanReadV y →
      ∀ i ∈ [Instr.seVxVy x y, .sneVxVy x y, .orVxVy x y, .andVxVy x y, .xorVxVy x y, .addVxVy x y,
        .sub x y, .subn x y, .drw x y n],
      exec i s = .next (faultedBy i (.unwrittenRead (.v y)) s)) ∧
    (¬ s.CanReadV (match s.params.shiftSource with | .vx => x | .vy => y) →
      ∀ i ∈ [Instr.shr x y, .shl x y], exec i s = .next (faultedBy i
        (.unwrittenRead (.v (match s.params.shiftSource with | .vx => x | .vy => y))) s)) ∧
    (¬ s.CanReadV 0x0#4 →
      exec (.jpV0 nnn) s = .next (faultedBy (.jpV0 nnn) (.unwrittenRead (.v 0x0#4)) s)) ∧
    (¬ s.CanReadI →
      ∀ i ∈ [Instr.addIVx x, .ldMemVx x, .ldVxMem x],
      exec i s = .next (faultedBy i (.unwrittenRead .i) s)) ∧
    (s.CanReadV x → ¬ s.CanReadI →
      exec (.ldBVx x) s = .next (faultedBy (.ldBVx x) (.unwrittenRead .i) s)) ∧
    (s.CanReadV x → s.CanReadV y → ¬ s.CanReadI →
      exec (.drw x y n) s = .next (faultedBy (.drw x y n) (.unwrittenRead .i) s)) ∧
    (s.CanReadI → ¬ s.CanReadV x →
      exec (.addIVx x) s = .next (faultedBy (.addIVx x) (.unwrittenRead (.v x)) s)) ∧
    (¬ s.CanReadDT →
      exec (.ldVxDt x) s = .next (faultedBy (.ldVxDt x) (.unwrittenRead .dt) s)) ∧
    (s.CanReadI → y ≤ x → (∀ r, r < y → s.CanReadV r) → ¬ s.CanReadV y →
      s.I.val.toNat + y.toNat ≤ 0x1000 →
      exec (.ldMemVx x) s = .next (faultedBy (.ldMemVx x) (.unwrittenRead (.v y)) s))

/-- R12, R21: VF is as before after every instruction that neither writes it as a flag (8xy4, 8xy5,
8xy6, 8xy7, 8xyE, Dxyn, and Fx1E under FX1E_FLAG = set_clear) nor names it as its destination. -/
def Obligations.FlagRegisterIsKept : Prop :=
  ∀ (i : Instr) (s t : State), exec i s = .next t →
    (match i with
      | .addVxVy _ _ | .sub _ _ | .shr _ _ | .subn _ _ | .shl _ _ | .drw _ _ _ => False
      | .addIVx _ => s.params.fx1eFlag = .none
      | .ldVxKk x _ | .addVxKk x _ | .ldVxVy x _ | .orVxVy x _ | .andVxVy x _ | .xorVxVy x _
      | .rnd x _ | .ldVxDt x | .ldVxK x | .ldVxMem x => x ≠ vf
      | _ => True) →
    t.regV vf = s.regV vf

/-- R12, R50: only Fx33 and Fx55 change memory: after any other instruction every byte of it is as
before. -/
def Obligations.OnlyStoresChangeMemory : Prop :=
  ∀ (i : Instr) (s t : State), exec i s = .next t →
    (∀ x, i ≠ .ldBVx x) → (∀ x, i ≠ .ldMemVx x) → SameMemory s t ∧ t.mem = s.mem

/-- R12, R25: no instruction but CALL and RET reaches the stack: after any other, sp and every slot are
as before. -/
def Obligations.OnlyCallAndRetReachTheStack : Prop :=
  ∀ (i : Instr) (s t : State), exec i s = .next t → (∀ nnn, i ≠ .call nnn) → i ≠ .ret →
    t.sp = s.sp ∧ t.stack = s.stack

/-- R12, R23, R28, R29, R30, R33: who writes the other registers: I by Annn, Fx1E, Fx29 and, under
LDST_I_INCREMENT = x_plus_1, Fx55 and Fx65; DT by Fx15, ST by Fx18; the screen by 00E0 and Dxyn; the key
latch, the parameters and the host's inputs by no instruction. -/
def Obligations.OtherRegistersHaveTheirWriters : Prop :=
  ∀ (i : Instr) (s t : State), exec i s = .next t →
    ((match i with
      | .ldINnn _ | .addIVx _ | .ldFVx _ => False
      | .ldMemVx _ | .ldVxMem _ => s.params.ldstIncrement = .none
      | _ => True) → t.I = s.I) ∧
    ((∀ x, i ≠ .ldDtVx x) → t.DT = s.DT) ∧ ((∀ x, i ≠ .ldStVx x) → t.ST = s.ST) ∧
    (i ≠ .cls → (∀ x y n, i ≠ .drw x y n) → t.fb = s.fb) ∧
    t.keyPrev = s.keyPrev ∧ t.params = s.params ∧ t.keys = s.keys ∧ t.rnd = s.rnd ∧
    t.calls = s.calls ∧ t.draws = s.draws ∧ ((∀ nnn, i ≠ .sys nnn) → t.event = s.event)

/-- R34, R240: the step's inputs are read by their instructions alone: with another random byte every
instruction but Cxkk does the same (R34), and with another key vector every one but Ex9E, ExA1 and Fx0A
(R240). -/
def Obligations.InputsAreReadByTheirInstructions : Prop :=
  ∀ (i : Instr) (s : State) (b : Byte) (ks : Keys),
    ((∀ x kk, i ≠ .rnd x kk) →
      exec i { s with rnd := b } = mapNext (fun t => { t with rnd := b }) (exec i s)) ∧
    ((∀ x, i ≠ .skp x) → (∀ x, i ≠ .sknp x) → (∀ x, i ≠ .ldVxK x) →
      exec i { s with keys := ks } = mapNext (fun t => { t with keys := ks }) (exec i s))

/-! ## Control transfer -/

/-- R100: RET pops the call site and goes to it plus 2, changing nothing but sp and pc; on an empty
stack it raises StackUnderflow. -/
def Obligations.RetReturnsPastTheCallSite : Prop :=
  ∀ s : State,
    (∀ (h : 0 < s.sp.val), ∃ t, exec .ret s = .next t ∧ t.sp.val + 1 = s.sp.val ∧
      t.pc = pcValue s.params (s.stack[s.sp.val - 1]'(by have := s.sp.isLt; omega) + 2#16) ∧
      SameMemory s t ∧ t = { s with sp := t.sp, pc := t.pc }) ∧
    (s.sp.val = 0 → exec .ret s = .next (faultedBy .ret .stackUnderflow s))

/-- R101, R103: JP goes to nnn and JP V0 to nnn + V[0], which is not reduced to 12 bits under
PC_OVERFLOW = fault; neither changes anything but pc. -/
def Obligations.JumpsGoToTheirTarget : Prop :=
  ∀ (s : State) (nnn : Addr),
    (∃ t, exec (.jp nnn) s = .next t ∧ t.pc.toNat = nnn.toNat ∧ OnlyPc s t) ∧
    (s.CanReadV 0x0#4 → ∃ t, exec (.jpV0 nnn) s = .next t ∧ OnlyPc s t ∧
      (s.params.pcOverflow = .fault → t.pc.toNat = nnn.toNat + (s.getV 0x0#4).toNat) ∧
      (s.params.pcOverflow = .wrap12 →
        t.pc.toNat = (nnn.toNat + (s.getV 0x0#4).toNat) % 0x1000))

/-- R102, R26: CALL pushes its own address on the next free slot and goes to nnn, every other slot as
before; on a full stack of 16 it raises StackOverflow. -/
def Obligations.CallPushesItsOwnAddress : Prop :=
  ∀ (s : State) (nnn : Addr),
    (∀ (h : s.sp.val < 16), ∃ t, exec (.call nnn) s = .next t ∧ t.sp.val = s.sp.val + 1 ∧
      t.stack[s.sp.val] = s.pc ∧ (∀ j (hj : j < 16), j ≠ s.sp.val → t.stack[j] = s.stack[j]) ∧
      t.pc.toNat = nnn.toNat ∧ SameMemory s t ∧
      t = { s with stack := t.stack, sp := t.sp, pc := t.pc }) ∧
    (s.sp.val = 16 → exec (.call nnn) s = .next (faultedBy (.call nnn) .stackOverflow s))

/-- R100, R102 (the source's property 'Call then return'): two steps, a CALL at pc whose target holds
00EE and that RET, come back to pc + 2 with the stack pointer as it was. -/
def Obligations.CallThenReturnComesBack : Prop :=
  ∀ (s : State) (nnn : Addr) (k1 k2 : Keys) (b1 b2 : Byte) (rest : List HostCall),
    s.status = .running → s.calls = .step k1 b1 :: .step k2 b2 :: rest → s.sp.val < 16 →
    fetch16 s.pc.toNat s = .ok (encode (.call nnn)) → fetch16 nnn.toNat s = .ok 0x00EE#16 →
    ∃ u t, step s = .next u ∧ step u = .next t ∧ t.pc = pcValue s.params (s.pc + 2#16) ∧
      t.sp = s.sp ∧ t.status = .running ∧ t.V = s.V ∧ SameMemory s t

/-! ## Skips -/

/-- R120, R121: 3xkk skips when V[x] = kk and 4xkk when it is not: pc + 4, else pc + 2, nothing else
changed. -/
def Obligations.ByteSkips : Prop :=
  ∀ (s : State) (x : Nibble) (kk : Byte), s.CanReadV x →
    (∃ t, exec (.seVxKk x kk) s = .next t ∧ OnlyPc s t ∧
      t.pc = pcValue s.params (if s.getV x = kk then s.pc + 4#16 else s.pc + 2#16)) ∧
    (∃ t, exec (.sneVxKk x kk) s = .next t ∧ OnlyPc s t ∧
      t.pc = pcValue s.params (if s.getV x = kk then s.pc + 2#16 else s.pc + 4#16))

/-- R122, R123: 5xy0 skips when V[x] = V[y] and 9xy0 when they differ: pc + 4, else pc + 2, nothing
else changed. -/
def Obligations.RegisterSkips : Prop :=
  ∀ (s : State) (x y : Nibble), s.CanReadV x → s.CanReadV y →
    (∃ t, exec (.seVxVy x y) s = .next t ∧ OnlyPc s t ∧
      t.pc = pcValue s.params (if s.getV x = s.getV y then s.pc + 4#16 else s.pc + 2#16)) ∧
    (∃ t, exec (.sneVxVy x y) s = .next t ∧ OnlyPc s t ∧
      t.pc = pcValue s.params (if s.getV x = s.getV y then s.pc + 2#16 else s.pc + 4#16))

/-! ## Register loads and arithmetic -/

/-- R140, R142: 6xkk loads kk and 8xy0 copies V[y] into V[x]; nothing else changes but pc. -/
def Obligations.RegisterLoads : Prop :=
  ∀ (s : State) (x y : Nibble) (kk : Byte),
    (∃ t, exec (.ldVxKk x kk) s = .next t ∧ t.regV x = Reg.put kk ∧ OnlyRegsAndPc [x] s t ∧
      t.pc = pcValue s.params (s.pc + 2#16)) ∧
    (s.CanReadV y → ∃ t, exec (.ldVxVy x y) s = .next t ∧ t.regV x = Reg.put (s.getV y) ∧
      OnlyRegsAndPc [x] s t ∧ t.pc = pcValue s.params (s.pc + 2#16))

/-- R141: 7xkk adds kk mod 256 and writes no flag: VF changes only as the destination. -/
def Obligations.AddImmediateSetsNoFlag : Prop :=
  ∀ (s : State) (x : Nibble) (kk : Byte), s.CanReadV x →
    ∃ t, exec (.addVxKk x kk) s = .next t ∧ (t.regV x).written = true ∧
      (t.getV x).toNat = ((s.getV x).toNat + kk.toNat) % 256 ∧ OnlyRegsAndPc [x] s t ∧
      t.pc = pcValue s.params (s.pc + 2#16)

/-- R143, R144, R145: 8xy1, 8xy2 and 8xy3 leave in V[x] the bitwise OR, AND and XOR, bit by bit, and
write no flag. -/
def Obligations.LogicWritesOnlyItsRegister : Prop :=
  ∀ (s : State) (x y : Nibble), s.CanReadV x → s.CanReadV y →
    (∃ t, exec (.orVxVy x y) s = .next t ∧ (t.regV x).written = true ∧ OnlyRegsAndPc [x] s t ∧
      t.pc = pcValue s.params (s.pc + 2#16) ∧
      ∀ b < 8, (t.getV x).getLsbD b = ((s.getV x).getLsbD b || (s.getV y).getLsbD b)) ∧
    (∃ t, exec (.andVxVy x y) s = .next t ∧ (t.regV x).written = true ∧ OnlyRegsAndPc [x] s t ∧
      t.pc = pcValue s.params (s.pc + 2#16) ∧
      ∀ b < 8, (t.getV x).getLsbD b = ((s.getV x).getLsbD b && (s.getV y).getLsbD b)) ∧
    (∃ t, exec (.xorVxVy x y) s = .next t ∧ (t.regV x).written = true ∧ OnlyRegsAndPc [x] s t ∧
      t.pc = pcValue s.params (s.pc + 2#16) ∧
      ∀ b < 8, (t.getV x).getLsbD b = ((s.getV x).getLsbD b ^^ (s.getV y).getLsbD b))

/-- R146: 8xy4 leaves the sum mod 256 in V[x] and the carry in VF; with x = F the flag stays. -/
def Obligations.AddReportsTheCarry : Prop :=
  ∀ (s : State) (x y : Nibble), s.CanReadV x → s.CanReadV y →
    ∃ t, exec (.addVxVy x y) s = .next t ∧ OnlyRegsAndPc [x, vf] s t ∧
      t.pc = pcValue s.params (s.pc + 2#16) ∧
      t.regV vf = Reg.put (if (s.getV x).toNat + (s.getV y).toNat > 255 then 1#8 else 0#8) ∧
      (x ≠ vf → (t.regV x).written = true ∧
        (t.getV x).toNat = ((s.getV x).toNat + (s.getV y).toNat) % 256)

/-- R147, R149: 8xy5 leaves V[x] - V[y] mod 256 and 8xy7 V[y] - V[x] mod 256 in V[x], with VF 1 exactly
when no borrow occurred, equality included; with x = F the flag stays. -/
def Obligations.SubtractionsReportNoBorrow : Prop :=
  ∀ (s : State) (x y : Nibble), s.CanReadV x → s.CanReadV y →
    (∃ t, exec (.sub x y) s = .next t ∧ OnlyRegsAndPc [x, vf] s t ∧
      t.pc = pcValue s.params (s.pc + 2#16) ∧
      t.regV vf = Reg.put (if (s.getV x).toNat ≥ (s.getV y).toNat then 1#8 else 0#8) ∧
      (x ≠ vf → (t.regV x).written = true ∧
        ((t.getV x).toNat : Int) = ((s.getV x).toNat - (s.getV y).toNat : Int) % 256)) ∧
    (∃ t, exec (.subn x y) s = .next t ∧ OnlyRegsAndPc [x, vf] s t ∧
      t.pc = pcValue s.params (s.pc + 2#16) ∧
      t.regV vf = Reg.put (if (s.getV y).toNat ≥ (s.getV x).toNat then 1#8 else 0#8) ∧
      (x ≠ vf → (t.regV x).written = true ∧
        ((t.getV x).toNat : Int) = ((s.getV y).toNat - (s.getV x).toNat : Int) % 256))

/-- R148, R150: 8xy6 and 8xyE shift V[x], or V[y] under SHIFT_SOURCE = Vy, by one into V[x], with the
bit shifted out in VF; with x = F the flag stays. -/
def Obligations.ShiftsReportTheBitShiftedOut : Prop :=
  ∀ (s : State) (x y src : Nibble),
    src = (match s.params.shiftSource with | .vx => x | .vy => y) → s.CanReadV src →
    (∃ t, exec (.shr x y) s = .next t ∧ OnlyRegsAndPc [x, vf] s t ∧
      t.pc = pcValue s.params (s.pc + 2#16) ∧
      t.regV vf = Reg.put (BitVec.ofNat 8 ((s.getV src).toNat % 2)) ∧
      (x ≠ vf → (t.regV x).written = true ∧ (t.getV x).toNat = (s.getV src).toNat / 2)) ∧
    (∃ t, exec (.shl x y) s = .next t ∧ OnlyRegsAndPc [x, vf] s t ∧
      t.pc = pcValue s.params (s.pc + 2#16) ∧
      t.regV vf = Reg.put (BitVec.ofNat 8 ((s.getV src).toNat / 128)) ∧
      (x ≠ vf → (t.regV x).written = true ∧ (t.getV x).toNat = (s.getV src).toNat * 2 % 256))

/-- R151: Cxkk leaves this step's random byte masked by kk in V[x], for every value the byte has. -/
def Obligations.RandomByteIsMasked : Prop :=
  ∀ (s : State) (x : Nibble) (kk : Byte),
    ∃ t, exec (.rnd x kk) s = .next t ∧ OnlyRegsAndPc [x] s t ∧ (t.regV x).written = true ∧
      t.pc = pcValue s.params (s.pc + 2#16) ∧
      ∀ b < 8, (t.getV x).getLsbD b = (s.rnd.getLsbD b && kk.getLsbD b)

/-! ## The address register and memory transfers -/

/-- R170: Annn stores nnn exactly in I; nothing else changes but pc. -/
def Obligations.LoadIndex : Prop :=
  ∀ (s : State) (nnn : Addr),
    ∃ t, exec (.ldINnn nnn) s = .next t ∧ t.I = Reg.put nnn ∧ SameMemory s t ∧
      t.pc = pcValue s.params (s.pc + 2#16) ∧ t = { s with I := t.I, pc := t.pc }

/-- R171: Fx1E leaves I + V[x] mod 4096 in I; VF reports a sum past 0xFFF under FX1E_FLAG = set_clear
and is as before under none. With x = F the addend is the old VF. -/
def Obligations.AddToIndex : Prop :=
  ∀ (s : State) (x : Nibble), s.CanReadI → s.CanReadV x →
    ∃ t, exec (.addIVx x) s = .next t ∧ SameRegsBut [vf] s t ∧ SameMemory s t ∧
      t = { s with V := t.V, I := t.I, pc := t.pc } ∧ t.pc = pcValue s.params (s.pc + 2#16) ∧
      t.I.written = true ∧ t.I.val.toNat = (s.I.val.toNat + (s.getV x).toNat) % 4096 ∧
      (s.params.fx1eFlag = .setClear →
        t.regV vf = Reg.put (if s.I.val.toNat + (s.getV x).toNat > 0xFFF then 1#8 else 0#8)) ∧
      (s.params.fx1eFlag = .none → t.regV vf = s.regV vf)

/-- R172: Fx29 leaves in I the address of the glyph of V[x]'s low nibble, for every legal FONT_BASE; it
lies in the reserved region. -/
def Obligations.FontAddressOfADigit : Prop :=
  ∀ (s : State) (x : Nibble), s.params.Legal → s.CanReadV x →
    ∃ t, exec (.ldFVx x) s = .next t ∧ t.I.written = true ∧
      t.I.val.toNat = s.params.fontBase.toNat + 5 * ((s.getV x).toNat % 16) ∧
      t.I.val.toNat ≤ 0x1FF ∧ SameMemory s t ∧ t.pc = pcValue s.params (s.pc + 2#16) ∧
      t = { s with I := t.I, pc := t.pc }

/-- R173: Fx33 stores the hundreds, tens and ones digits of V[x] at I, I + 1 and I + 2, every other byte
and all else as before; with I ≥ 0xFFE it raises OutOfRange(0x1000) and stores nothing. -/
def Obligations.DecimalDigitsAreStored : Prop :=
  ∀ (s : State) (x : Nibble), s.CanReadV x → s.CanReadI →
    (s.I.val.toNat < 0xFFE → ∃ t, exec (.ldBVx x) s = .next t ∧
      (t.byteAt s.I.val.toNat).toNat = (s.getV x).toNat / 100 ∧
      (t.byteAt (s.I.val.toNat + 1)).toNat = (s.getV x).toNat / 10 % 10 ∧
      (t.byteAt (s.I.val.toNat + 2)).toNat = (s.getV x).toNat % 10 ∧
      SameMemoryOutside s.I.val.toNat 3 s t ∧ t.pc = pcValue s.params (s.pc + 2#16) ∧
      t = { s with mem := t.mem, pc := t.pc }) ∧
    (s.I.val.toNat ≥ 0xFFE →
      exec (.ldBVx x) s = .next (faultedBy (.ldBVx x) (.outOfRange 0x1000) s))

/-- R174: Fx55 stores V[0] to V[x] at I to I + x, every other byte as before; I is as before, or
(I + x + 1) mod 4096 under LDST_I_INCREMENT = x_plus_1; with I + x > 0xFFF it raises
OutOfRange(0x1000) and stores nothing. That it does so whether or not a register above the one whose
store reaches 0x1000 can be read is the model's deduction from the order of R174's pseudocode (log 18);
a register up to that one that can not be read is `UnwrittenOperandsFault`'s. -/
def Obligations.RegistersAreStored : Prop :=
  ∀ (s : State) (x : Nibble), s.CanReadI →
    ((∀ r, r ≤ x → s.CanReadV r) → s.I.val.toNat + x.toNat ≤ 0xFFF →
      ∃ t, exec (.ldMemVx x) s = .next t ∧
      (∀ r, r ≤ x → t.byteAt (s.I.val.toNat + r.toNat) = s.getV r) ∧
      SameMemoryOutside s.I.val.toNat (x.toNat + 1) s t ∧
      t.pc = pcValue s.params (s.pc + 2#16) ∧ t = { s with mem := t.mem, I := t.I, pc := t.pc } ∧
      (s.params.ldstIncrement = .none → t.I = s.I) ∧
      (s.params.ldstIncrement = .xPlusOne → t.I.written = true ∧
        t.I.val.toNat = (s.I.val.toNat + x.toNat + 1) % 4096)) ∧
    ((∀ r, r ≤ x → s.I.val.toNat + r.toNat ≤ 0x1000 → s.CanReadV r) →
      s.I.val.toNat + x.toNat > 0xFFF →
      exec (.ldMemVx x) s = .next (faultedBy (.ldMemVx x) (.outOfRange 0x1000) s))

/-- R175: Fx65 loads V[0] to V[x] from I to I + x, the registers above x and memory as before; I as for
Fx55; with I + x > 0xFFF it raises OutOfRange(0x1000) and loads nothing. -/
def Obligations.RegistersAreLoaded : Prop :=
  ∀ (s : State) (x : Nibble), s.CanReadI →
    (s.I.val.toNat + x.toNat ≤ 0xFFF → ∃ t, exec (.ldVxMem x) s = .next t ∧
      (∀ r, r ≤ x → t.regV r = Reg.put (s.byteAt (s.I.val.toNat + r.toNat))) ∧
      (∀ r, x < r → t.regV r = s.regV r) ∧ SameMemory s t ∧
      t.pc = pcValue s.params (s.pc + 2#16) ∧ t = { s with V := t.V, I := t.I, pc := t.pc } ∧
      (s.params.ldstIncrement = .none → t.I = s.I) ∧
      (s.params.ldstIncrement = .xPlusOne → t.I.written = true ∧
        t.I.val.toNat = (s.I.val.toNat + x.toNat + 1) % 4096)) ∧
    (s.I.val.toNat + x.toNat > 0xFFF →
      exec (.ldVxMem x) s = .next (faultedBy (.ldVxMem x) (.outOfRange 0x1000) s))

/-! ## The display -/

/-- R190: after 00E0 every cell is false; VF, memory and all else are as before. -/
def Obligations.ClearScreen : Prop :=
  ∀ s : State, ∃ t, exec .cls s = .next t ∧ (∀ r c, pixel t.fb r c = false) ∧ SameMemory s t ∧
    t.pc = pcValue s.params (s.pc + 2#16) ∧ t = { s with fb := t.fb, pc := t.pc }

/-- R191 (its operand roles are the spec's D10, from general knowledge: log 12): Dxyn draws the n
bytes at I with origin column V[x] and row V[y] as they were before the step, and VF reports the
collision; with n = 0 it reads no memory; a sprite past 0xFFF raises OutOfRange(0x1000) and draws
nothing. -/
def Obligations.DrawReadsItsSprite : Prop :=
  ∀ (s : State) (x y n : Nibble), s.CanReadV x → s.CanReadV y → s.CanReadI →
    (n = 0#4 ∨ s.I.val.toNat + n.toNat ≤ 0x1000 →
      ∃ t d, exec (.drw x y n) s = .next t ∧
        d = draw (s.getV y).toNat (s.getV x).toNat
          ((List.range n.toNat).map fun k => s.byteAt (s.I.val.toNat + k)) s.fb ∧
        t.fb = d.grid ∧ t.regV vf = Reg.put (if d.hit then 1#8 else 0#8) ∧
        SameRegsBut [vf] s t ∧ SameMemory s t ∧ t.pc = pcValue s.params (s.pc + 2#16) ∧
        t = { s with V := t.V, fb := t.fb, pc := t.pc }) ∧
    (n ≠ 0#4 → s.I.val.toNat + n.toNat > 0x1000 →
      exec (.drw x y n) s = .next (faultedBy (.drw x y n) (.outOfRange 0x1000) s))

/-- R192, and R193 (the spec's own inference from it): a draw of at most 15 rows toggles exactly the
cells some set bit of the sprite maps to, and reports a collision exactly when some such cell was on
before it. -/
def Obligations.DrawTogglesWhatTheSpriteCovers : Prop :=
  ∀ (row col : Nat) (bytes : List Byte) (g : Grid), bytes.length ≤ 15 →
    (∀ r c, r < 32 → c < 64 →
      (SpriteCovers row col bytes r c → pixel (draw row col bytes g).grid r c = !pixel g r c) ∧
      (¬ SpriteCovers row col bytes r c → pixel (draw row col bytes g).grid r c = pixel g r c)) ∧
    ((draw row col bytes g).hit = true ↔ ∃ r c, SpriteCovers row col bytes r c ∧ pixel g r c = true)

/-- R192, and R194 (the spec's own inference from it): drawing a sprite twice at one origin restores
the screen; the second draw reports a collision exactly when some touched cell is on after the first,
so it does when every touched cell was off at first and the sprite has a set bit, and does not when
every touched cell was on. -/
def Obligations.DrawingTwiceRestoresTheScreen : Prop :=
  ∀ (row col : Nat) (bytes : List Byte) (g : Grid), bytes.length ≤ 15 →
    (draw row col bytes (draw row col bytes g).grid).grid = g ∧
    ((draw row col bytes (draw row col bytes g).grid).hit = true ↔
      ∃ r c, SpriteCovers row col bytes r c ∧ pixel (draw row col bytes g).grid r c = true) ∧
    ((∀ r c, SpriteCovers row col bytes r c → pixel g r c = false) →
      (∃ r c, SpriteCovers row col bytes r c) →
      (draw row col bytes (draw row col bytes g).grid).hit = true) ∧
    ((∀ r c, SpriteCovers row col bytes r c → pixel g r c = true) →
      (draw row col bytes (draw row col bytes g).grid).hit = false)

/-! ## Keys and timers -/

/-- R210, R211, R217: Ex9E skips when the key V[x] is down and ExA1 when it is not, nothing else
changed; a V[x] above 15 raises KeyIndexOutOfRange under KEY_INDEX_POLICY = fault and names the key of
its low nibble under low_nibble. -/
def Obligations.KeySkips : Prop :=
  ∀ (s : State) (x k : Nibble), s.CanReadV x →
    ((s.getV x).toNat ≤ 15 ∨ s.params.keyIndexPolicy = .lowNibble →
      k.toNat = (s.getV x).toNat % 16 →
      (∃ t, exec (.skp x) s = .next t ∧ OnlyPc s t ∧
        t.pc = pcValue s.params (if keyDown s.keys k then s.pc + 4#16 else s.pc + 2#16)) ∧
      (∃ t, exec (.sknp x) s = .next t ∧ OnlyPc s t ∧
        t.pc = pcValue s.params (if keyDown s.keys k then s.pc + 2#16 else s.pc + 4#16))) ∧
    ((s.getV x).toNat > 15 → s.params.keyIndexPolicy = .fault →
      exec (.skp x) s = .next (faultedBy (.skp x) (.keyIndexOutOfRange (s.getV x)) s) ∧
      exec (.sknp x) s = .next (faultedBy (.sknp x) (.keyIndexOutOfRange (s.getV x)) s))

/-- R213, R216: Fx0A loads the number of a key that has a key event, by the trigger of FX0A_TRIGGER,
and advances; with no key event it changes nothing and pc holds. Which of several keys it takes is a
free value of the model (log 15), and the statement says only that the key has a key event. -/
def Obligations.WaitForAKey : Prop :=
  ∀ (s : State) (x : Nibble) (event : Nibble → Prop),
    (∀ k, event k ↔ match s.params.fx0aTrigger with
      | .pressEdge => keyDown s.keys k = true ∧ keyDown s.keyPrev k = false
      | .held => keyDown s.keys k = true
      | .releaseEdge => keyDown s.keyPrev k = true ∧ keyDown s.keys k = false) →
    ((∃ k, event k) → ∃ t k, event k ∧ exec (.ldVxK x) s = .next t ∧
      (t.regV x).written = true ∧ (t.getV x).toNat = k.toNat ∧ OnlyRegsAndPc [x] s t ∧
      t.pc = pcValue s.params (s.pc + 2#16)) ∧
    ((∀ k, ¬ event k) → exec (.ldVxK x) s = .next s)

/-- R212, R214, R215, R244: Fx07 copies DT into V[x], Fx15 V[x] into DT and Fx18 V[x] into ST; the sound
signal is on after Fx18 exactly when V[x] is nonzero. Nothing else changes but pc. -/
def Obligations.TimerInstructions : Prop :=
  ∀ (s : State) (x : Nibble),
    (s.CanReadDT → ∃ t, exec (.ldVxDt x) s = .next t ∧ t.regV x = Reg.put s.DT.val ∧
      OnlyRegsAndPc [x] s t ∧ t.pc = pcValue s.params (s.pc + 2#16)) ∧
    (s.CanReadV x → ∃ t, exec (.ldDtVx x) s = .next t ∧ t.DT = Reg.put (s.getV x) ∧
      SameMemory s t ∧ t.pc = pcValue s.params (s.pc + 2#16) ∧
      t = { s with DT := t.DT, pc := t.pc }) ∧
    (s.CanReadV x → ∃ t, exec (.ldStVx x) s = .next t ∧ t.ST = Reg.put (s.getV x) ∧
      (t.sound = true ↔ s.getV x ≠ 0#8) ∧ SameMemory s t ∧
      t.pc = pcValue s.params (s.pc + 2#16) ∧ t = { s with ST := t.ST, pc := t.pc })

/-- R244: in every state the sound signal is on exactly when ST is nonzero. R36, by the spec's decision
D3 and with the model's written marks (log 5): it is off while ST is unwritten under RESET_REGS =
unwritten_faults. R242: after a tick of a Running VM it is on exactly when ST was above 1, so it goes
off when ST reaches 0. -/
def Obligations.SoundFollowsTheSoundTimer : Prop :=
  ∀ s : State,
    (s.params.resetRegs = .zero ∨ s.ST.written = true →
      (s.sound = true ↔ s.ST.val ≠ 0x00#8)) ∧
    (s.params.resetRegs = .unwrittenFaults → s.ST.written = false → s.sound = false) ∧
    ∀ rest, s.calls = .tick :: rest → s.status = .running →
      ∃ t, step s = .next t ∧
        (s.params.resetRegs = .zero ∨ s.ST.written = true →
          (t.sound = true ↔ s.ST.val.toNat > 1)) ∧
        (s.params.resetRegs = .unwrittenFaults → s.ST.written = false → t.sound = false)

/-! ## SYS and the end of a run -/

/-- R76, R75: SYS emits the event with its address and its word and advances by 2; nothing else
changes. -/
def Obligations.SysIsAnUnknownOpcode : Prop :=
  ∀ (s : State) (nnn : Addr), ∃ t w, exec (.sys nnn) s = .next t ∧ w.toNat = nnn.toNat ∧
    t.event = some { pc := s.pc, word := w } ∧ t.pc = pcValue s.params (s.pc + 2#16) ∧
    SameMemory s t ∧ t = { s with event := t.event, pc := t.pc }

/-- R266(b): a state at a jump to itself steps for ever and changes nothing but the key latch (beside
the host's inputs), and is at the same jump afterwards. -/
def Obligations.SelfJumpStepsForEver : Prop :=
  ∀ (s : State) (keys : Keys) (rnd : Byte) (rest : List HostCall),
    s.EndedNormally → s.calls = .step keys rnd :: rest →
    ∃ t, step s = .next t ∧ t = { delivered s rest keys rnd with keyPrev := keys } ∧
      t.EndedNormally
end

