-- ==== Sys2Proof/Laws/Memory.lean ====
section
/-! SUPPORT. Memory as data: a read after a write, and the canonical form. -/

namespace Sys2Proof.Machine

/-! ## A read after a write -/

theorem memLookup_memErase (a b : Nat) (m : Memory) :
    memLookup b (memErase a m) = if b = a then none else memLookup b m := by
  induction m with
  | nil => simp [memErase, memLookup]
  | cons c cs ih =>
    by_cases hc : c.1 = a <;> by_cases hb : b = a <;> by_cases hcb : c.1 = b <;>
      simp_all [memErase, memLookup]

theorem memLookup_memInsert (a b : Nat) (v : Byte) (m : Memory) :
    memLookup b (memInsert a v m) = if b = a then some v else memLookup b m := by
  induction m with
  | nil => simp [memInsert, memLookup, eq_comm (a := a)]
  | cons c cs ih =>
    unfold memInsert
    split
    · simp [memLookup, eq_comm (a := a)]
    · split
      · next h => by_cases hb : b = a <;> simp_all [memLookup, eq_comm]
      · next h =>
        by_cases hb : b = a
        · subst hb; simp [memLookup, ih, Ne.symm h]
        · simp [memLookup, ih, hb]

/-- The byte stored reads back; every other byte is as before. -/
theorem State.byteAt_setByte (s : State) (a b : Nat) (v : Byte) :
    (s.setByte a v).byteAt b = if b = a then v else s.byteAt b := by
  unfold State.byteAt State.setByte memSet
  by_cases hv : v = unlistedByte s.params a
  · by_cases hb : b = a <;> simp [hv, hb, memLookup_memErase]
  · by_cases hb : b = a <;> simp [hv, hb, memLookup_memInsert]

@[simp] theorem State.byteAt_setByte_same (s : State) (a : Nat) (v : Byte) :
    (s.setByte a v).byteAt a = v := by simp [State.byteAt_setByte]

theorem State.byteAt_setByte_ne (s : State) {a b : Nat} (v : Byte) (h : b ≠ a) :
    (s.setByte a v).byteAt b = s.byteAt b := by simp [State.byteAt_setByte, h]

/-- A byte of memory depends on the memory list and the parameters alone. -/
theorem State.byteAt_congr {s t : State} (hm : t.mem = s.mem) (hp : t.params = s.params) (a : Nat) :
    t.byteAt a = s.byteAt a := by simp [State.byteAt, hm, hp]

/-! ## The canonical form -/

theorem memWfFrom_mono (p : Params) {lo lo' : Nat} {m : Memory} (h : lo' ≤ lo)
    (w : memWfFrom p lo m = true) : memWfFrom p lo' m = true := by
  cases m with
  | nil => rfl
  | cons c cs =>
    simp only [memWfFrom, Bool.and_eq_true, decide_eq_true_eq] at w ⊢
    exact ⟨⟨⟨by omega, w.1.1.2⟩, w.1.2⟩, w.2⟩

theorem memErase_wfFrom (p : Params) (a : Nat) {m : Memory} :
    ∀ {lo : Nat}, memWfFrom p lo m = true → memWfFrom p lo (memErase a m) = true := by
  induction m with
  | nil => intro lo h; simpa [memErase] using h
  | cons c cs ih =>
    intro lo w
    have w' := w
    simp only [memWfFrom, Bool.and_eq_true, decide_eq_true_eq] at w'
    unfold memErase
    split
    · exact memWfFrom_mono p (by omega) (ih w'.2)
    · simp only [memWfFrom, Bool.and_eq_true, decide_eq_true_eq]
      exact ⟨w'.1, ih w'.2⟩

theorem memInsert_wfFrom (p : Params) {a : Nat} {b : Byte} (ha : a < 4096)
    (hb : b ≠ unlistedByte p a) {m : Memory} :
    ∀ {lo : Nat}, lo ≤ a → memWfFrom p lo m = true → memWfFrom p lo (memInsert a b m) = true := by
  induction m with
  | nil => intro lo hl _; simp [memInsert, memWfFrom, hl, ha, hb]
  | cons c cs ih =>
    intro lo hl w
    simp only [memWfFrom, Bool.and_eq_true, decide_eq_true_eq] at w
    unfold memInsert
    split
    · next h =>
      simp only [memWfFrom, Bool.and_eq_true, decide_eq_true_eq]
      exact ⟨⟨⟨hl, ha⟩, by simpa using hb⟩, ⟨⟨by omega, w.1.1.2⟩, w.1.2⟩, w.2⟩
    · split
      · next h =>
        simp only [memWfFrom, Bool.and_eq_true, decide_eq_true_eq]
        exact ⟨⟨⟨hl, ha⟩, by simpa using hb⟩, by rw [h]; exact w.2⟩
      · next h h' =>
        simp only [memWfFrom, Bool.and_eq_true, decide_eq_true_eq]
        exact ⟨w.1, ih (by omega) w.2⟩

/-- Storing a byte inside the address space keeps the canonical form. -/
theorem memSet_wf (p : Params) {a : Nat} (b : Byte) {m : Memory} (ha : a < 4096)
    (w : Memory.wf p m = true) : Memory.wf p (memSet p a b m) = true := by
  unfold memSet
  split
  · exact memErase_wfFrom p a w
  · next h => exact memInsert_wfFrom p ha h (Nat.zero_le a) w

/-- Reset's memory is canonical, for every choice of parameters. -/
theorem resetWith_mem_wf (p : Params) : Memory.wf p (State.resetWith p).mem = true := rfl

end Sys2Proof.Machine
end

