-- ==== Sys2Proof/Laws/State.lean ====
section
/-! SUPPORT. What each update of State leaves in each field: one lemma per field per update, so that no
later proof unfolds a record update. -/

namespace Sys2Proof.Machine

/-! ## State.setV -/

@[simp] theorem State.setV_params (s : State) (x : Nibble) (b : Byte) :
    (s.setV x b).params = s.params := rfl
@[simp] theorem State.setV_V (s : State) (x : Nibble) (b : Byte) :
    (s.setV x b).V = s.V.set x.toNat (Reg.put b) x.isLt := rfl
@[simp] theorem State.setV_I (s : State) (x : Nibble) (b : Byte) :
    (s.setV x b).I = s.I := rfl
@[simp] theorem State.setV_pc (s : State) (x : Nibble) (b : Byte) :
    (s.setV x b).pc = s.pc := rfl
@[simp] theorem State.setV_stack (s : State) (x : Nibble) (b : Byte) :
    (s.setV x b).stack = s.stack := rfl
@[simp] theorem State.setV_sp (s : State) (x : Nibble) (b : Byte) :
    (s.setV x b).sp = s.sp := rfl
@[simp] theorem State.setV_DT (s : State) (x : Nibble) (b : Byte) :
    (s.setV x b).DT = s.DT := rfl
@[simp] theorem State.setV_ST (s : State) (x : Nibble) (b : Byte) :
    (s.setV x b).ST = s.ST := rfl
@[simp] theorem State.setV_mem (s : State) (x : Nibble) (b : Byte) :
    (s.setV x b).mem = s.mem := rfl
@[simp] theorem State.setV_fb (s : State) (x : Nibble) (b : Byte) :
    (s.setV x b).fb = s.fb := rfl
@[simp] theorem State.setV_status (s : State) (x : Nibble) (b : Byte) :
    (s.setV x b).status = s.status := rfl
@[simp] theorem State.setV_keyPrev (s : State) (x : Nibble) (b : Byte) :
    (s.setV x b).keyPrev = s.keyPrev := rfl
@[simp] theorem State.setV_keys (s : State) (x : Nibble) (b : Byte) :
    (s.setV x b).keys = s.keys := rfl
@[simp] theorem State.setV_rnd (s : State) (x : Nibble) (b : Byte) :
    (s.setV x b).rnd = s.rnd := rfl
@[simp] theorem State.setV_calls (s : State) (x : Nibble) (b : Byte) :
    (s.setV x b).calls = s.calls := rfl
@[simp] theorem State.setV_draws (s : State) (x : Nibble) (b : Byte) :
    (s.setV x b).draws = s.draws := rfl
@[simp] theorem State.setV_event (s : State) (x : Nibble) (b : Byte) :
    (s.setV x b).event = s.event := rfl

/-! ## State.setI -/

@[simp] theorem State.setI_params (s : State) (a : Addr) :
    (s.setI a).params = s.params := rfl
@[simp] theorem State.setI_V (s : State) (a : Addr) :
    (s.setI a).V = s.V := rfl
@[simp] theorem State.setI_I (s : State) (a : Addr) :
    (s.setI a).I = Reg.put a := rfl
@[simp] theorem State.setI_pc (s : State) (a : Addr) :
    (s.setI a).pc = s.pc := rfl
@[simp] theorem State.setI_stack (s : State) (a : Addr) :
    (s.setI a).stack = s.stack := rfl
@[simp] theorem State.setI_sp (s : State) (a : Addr) :
    (s.setI a).sp = s.sp := rfl
@[simp] theorem State.setI_DT (s : State) (a : Addr) :
    (s.setI a).DT = s.DT := rfl
@[simp] theorem State.setI_ST (s : State) (a : Addr) :
    (s.setI a).ST = s.ST := rfl
@[simp] theorem State.setI_mem (s : State) (a : Addr) :
    (s.setI a).mem = s.mem := rfl
@[simp] theorem State.setI_fb (s : State) (a : Addr) :
    (s.setI a).fb = s.fb := rfl
@[simp] theorem State.setI_status (s : State) (a : Addr) :
    (s.setI a).status = s.status := rfl
@[simp] theorem State.setI_keyPrev (s : State) (a : Addr) :
    (s.setI a).keyPrev = s.keyPrev := rfl
@[simp] theorem State.setI_keys (s : State) (a : Addr) :
    (s.setI a).keys = s.keys := rfl
@[simp] theorem State.setI_rnd (s : State) (a : Addr) :
    (s.setI a).rnd = s.rnd := rfl
@[simp] theorem State.setI_calls (s : State) (a : Addr) :
    (s.setI a).calls = s.calls := rfl
@[simp] theorem State.setI_draws (s : State) (a : Addr) :
    (s.setI a).draws = s.draws := rfl
@[simp] theorem State.setI_event (s : State) (a : Addr) :
    (s.setI a).event = s.event := rfl

/-! ## State.setDT -/

@[simp] theorem State.setDT_params (s : State) (b : Byte) :
    (s.setDT b).params = s.params := rfl
@[simp] theorem State.setDT_V (s : State) (b : Byte) :
    (s.setDT b).V = s.V := rfl
@[simp] theorem State.setDT_I (s : State) (b : Byte) :
    (s.setDT b).I = s.I := rfl
@[simp] theorem State.setDT_pc (s : State) (b : Byte) :
    (s.setDT b).pc = s.pc := rfl
@[simp] theorem State.setDT_stack (s : State) (b : Byte) :
    (s.setDT b).stack = s.stack := rfl
@[simp] theorem State.setDT_sp (s : State) (b : Byte) :
    (s.setDT b).sp = s.sp := rfl
@[simp] theorem State.setDT_DT (s : State) (b : Byte) :
    (s.setDT b).DT = Reg.put b := rfl
@[simp] theorem State.setDT_ST (s : State) (b : Byte) :
    (s.setDT b).ST = s.ST := rfl
@[simp] theorem State.setDT_mem (s : State) (b : Byte) :
    (s.setDT b).mem = s.mem := rfl
@[simp] theorem State.setDT_fb (s : State) (b : Byte) :
    (s.setDT b).fb = s.fb := rfl
@[simp] theorem State.setDT_status (s : State) (b : Byte) :
    (s.setDT b).status = s.status := rfl
@[simp] theorem State.setDT_keyPrev (s : State) (b : Byte) :
    (s.setDT b).keyPrev = s.keyPrev := rfl
@[simp] theorem State.setDT_keys (s : State) (b : Byte) :
    (s.setDT b).keys = s.keys := rfl
@[simp] theorem State.setDT_rnd (s : State) (b : Byte) :
    (s.setDT b).rnd = s.rnd := rfl
@[simp] theorem State.setDT_calls (s : State) (b : Byte) :
    (s.setDT b).calls = s.calls := rfl
@[simp] theorem State.setDT_draws (s : State) (b : Byte) :
    (s.setDT b).draws = s.draws := rfl
@[simp] theorem State.setDT_event (s : State) (b : Byte) :
    (s.setDT b).event = s.event := rfl

/-! ## State.setST -/

@[simp] theorem State.setST_params (s : State) (b : Byte) :
    (s.setST b).params = s.params := rfl
@[simp] theorem State.setST_V (s : State) (b : Byte) :
    (s.setST b).V = s.V := rfl
@[simp] theorem State.setST_I (s : State) (b : Byte) :
    (s.setST b).I = s.I := rfl
@[simp] theorem State.setST_pc (s : State) (b : Byte) :
    (s.setST b).pc = s.pc := rfl
@[simp] theorem State.setST_stack (s : State) (b : Byte) :
    (s.setST b).stack = s.stack := rfl
@[simp] theorem State.setST_sp (s : State) (b : Byte) :
    (s.setST b).sp = s.sp := rfl
@[simp] theorem State.setST_DT (s : State) (b : Byte) :
    (s.setST b).DT = s.DT := rfl
@[simp] theorem State.setST_ST (s : State) (b : Byte) :
    (s.setST b).ST = Reg.put b := rfl
@[simp] theorem State.setST_mem (s : State) (b : Byte) :
    (s.setST b).mem = s.mem := rfl
@[simp] theorem State.setST_fb (s : State) (b : Byte) :
    (s.setST b).fb = s.fb := rfl
@[simp] theorem State.setST_status (s : State) (b : Byte) :
    (s.setST b).status = s.status := rfl
@[simp] theorem State.setST_keyPrev (s : State) (b : Byte) :
    (s.setST b).keyPrev = s.keyPrev := rfl
@[simp] theorem State.setST_keys (s : State) (b : Byte) :
    (s.setST b).keys = s.keys := rfl
@[simp] theorem State.setST_rnd (s : State) (b : Byte) :
    (s.setST b).rnd = s.rnd := rfl
@[simp] theorem State.setST_calls (s : State) (b : Byte) :
    (s.setST b).calls = s.calls := rfl
@[simp] theorem State.setST_draws (s : State) (b : Byte) :
    (s.setST b).draws = s.draws := rfl
@[simp] theorem State.setST_event (s : State) (b : Byte) :
    (s.setST b).event = s.event := rfl

/-! ## State.setFb -/

@[simp] theorem State.setFb_params (s : State) (g : Grid) :
    (s.setFb g).params = s.params := rfl
@[simp] theorem State.setFb_V (s : State) (g : Grid) :
    (s.setFb g).V = s.V := rfl
@[simp] theorem State.setFb_I (s : State) (g : Grid) :
    (s.setFb g).I = s.I := rfl
@[simp] theorem State.setFb_pc (s : State) (g : Grid) :
    (s.setFb g).pc = s.pc := rfl
@[simp] theorem State.setFb_stack (s : State) (g : Grid) :
    (s.setFb g).stack = s.stack := rfl
@[simp] theorem State.setFb_sp (s : State) (g : Grid) :
    (s.setFb g).sp = s.sp := rfl
@[simp] theorem State.setFb_DT (s : State) (g : Grid) :
    (s.setFb g).DT = s.DT := rfl
@[simp] theorem State.setFb_ST (s : State) (g : Grid) :
    (s.setFb g).ST = s.ST := rfl
@[simp] theorem State.setFb_mem (s : State) (g : Grid) :
    (s.setFb g).mem = s.mem := rfl
@[simp] theorem State.setFb_fb (s : State) (g : Grid) :
    (s.setFb g).fb = g := rfl
@[simp] theorem State.setFb_status (s : State) (g : Grid) :
    (s.setFb g).status = s.status := rfl
@[simp] theorem State.setFb_keyPrev (s : State) (g : Grid) :
    (s.setFb g).keyPrev = s.keyPrev := rfl
@[simp] theorem State.setFb_keys (s : State) (g : Grid) :
    (s.setFb g).keys = s.keys := rfl
@[simp] theorem State.setFb_rnd (s : State) (g : Grid) :
    (s.setFb g).rnd = s.rnd := rfl
@[simp] theorem State.setFb_calls (s : State) (g : Grid) :
    (s.setFb g).calls = s.calls := rfl
@[simp] theorem State.setFb_draws (s : State) (g : Grid) :
    (s.setFb g).draws = s.draws := rfl
@[simp] theorem State.setFb_event (s : State) (g : Grid) :
    (s.setFb g).event = s.event := rfl

/-! ## State.setPc -/

@[simp] theorem State.setPc_params (s : State) (v : Word) :
    (s.setPc v).params = s.params := rfl
@[simp] theorem State.setPc_V (s : State) (v : Word) :
    (s.setPc v).V = s.V := rfl
@[simp] theorem State.setPc_I (s : State) (v : Word) :
    (s.setPc v).I = s.I := rfl
@[simp] theorem State.setPc_pc (s : State) (v : Word) :
    (s.setPc v).pc = pcValue s.params v := rfl
@[simp] theorem State.setPc_stack (s : State) (v : Word) :
    (s.setPc v).stack = s.stack := rfl
@[simp] theorem State.setPc_sp (s : State) (v : Word) :
    (s.setPc v).sp = s.sp := rfl
@[simp] theorem State.setPc_DT (s : State) (v : Word) :
    (s.setPc v).DT = s.DT := rfl
@[simp] theorem State.setPc_ST (s : State) (v : Word) :
    (s.setPc v).ST = s.ST := rfl
@[simp] theorem State.setPc_mem (s : State) (v : Word) :
    (s.setPc v).mem = s.mem := rfl
@[simp] theorem State.setPc_fb (s : State) (v : Word) :
    (s.setPc v).fb = s.fb := rfl
@[simp] theorem State.setPc_status (s : State) (v : Word) :
    (s.setPc v).status = s.status := rfl
@[simp] theorem State.setPc_keyPrev (s : State) (v : Word) :
    (s.setPc v).keyPrev = s.keyPrev := rfl
@[simp] theorem State.setPc_keys (s : State) (v : Word) :
    (s.setPc v).keys = s.keys := rfl
@[simp] theorem State.setPc_rnd (s : State) (v : Word) :
    (s.setPc v).rnd = s.rnd := rfl
@[simp] theorem State.setPc_calls (s : State) (v : Word) :
    (s.setPc v).calls = s.calls := rfl
@[simp] theorem State.setPc_draws (s : State) (v : Word) :
    (s.setPc v).draws = s.draws := rfl
@[simp] theorem State.setPc_event (s : State) (v : Word) :
    (s.setPc v).event = s.event := rfl

/-! ## State.advance -/

@[simp] theorem State.advance_params (s : State) :
    (s.advance).params = s.params := rfl
@[simp] theorem State.advance_V (s : State) :
    (s.advance).V = s.V := rfl
@[simp] theorem State.advance_I (s : State) :
    (s.advance).I = s.I := rfl
@[simp] theorem State.advance_pc (s : State) :
    (s.advance).pc = pcValue s.params (s.pc + 2#16) := rfl
@[simp] theorem State.advance_stack (s : State) :
    (s.advance).stack = s.stack := rfl
@[simp] theorem State.advance_sp (s : State) :
    (s.advance).sp = s.sp := rfl
@[simp] theorem State.advance_DT (s : State) :
    (s.advance).DT = s.DT := rfl
@[simp] theorem State.advance_ST (s : State) :
    (s.advance).ST = s.ST := rfl
@[simp] theorem State.advance_mem (s : State) :
    (s.advance).mem = s.mem := rfl
@[simp] theorem State.advance_fb (s : State) :
    (s.advance).fb = s.fb := rfl
@[simp] theorem State.advance_status (s : State) :
    (s.advance).status = s.status := rfl
@[simp] theorem State.advance_keyPrev (s : State) :
    (s.advance).keyPrev = s.keyPrev := rfl
@[simp] theorem State.advance_keys (s : State) :
    (s.advance).keys = s.keys := rfl
@[simp] theorem State.advance_rnd (s : State) :
    (s.advance).rnd = s.rnd := rfl
@[simp] theorem State.advance_calls (s : State) :
    (s.advance).calls = s.calls := rfl
@[simp] theorem State.advance_draws (s : State) :
    (s.advance).draws = s.draws := rfl
@[simp] theorem State.advance_event (s : State) :
    (s.advance).event = s.event := rfl

/-! ## State.skipIf -/

@[simp] theorem State.skipIf_params (s : State) (c : Bool) :
    (s.skipIf c).params = s.params := rfl
@[simp] theorem State.skipIf_V (s : State) (c : Bool) :
    (s.skipIf c).V = s.V := rfl
@[simp] theorem State.skipIf_I (s : State) (c : Bool) :
    (s.skipIf c).I = s.I := rfl
@[simp] theorem State.skipIf_pc (s : State) (c : Bool) :
    (s.skipIf c).pc = pcValue s.params (if c then s.pc + 4#16 else s.pc + 2#16) := rfl
@[simp] theorem State.skipIf_stack (s : State) (c : Bool) :
    (s.skipIf c).stack = s.stack := rfl
@[simp] theorem State.skipIf_sp (s : State) (c : Bool) :
    (s.skipIf c).sp = s.sp := rfl
@[simp] theorem State.skipIf_DT (s : State) (c : Bool) :
    (s.skipIf c).DT = s.DT := rfl
@[simp] theorem State.skipIf_ST (s : State) (c : Bool) :
    (s.skipIf c).ST = s.ST := rfl
@[simp] theorem State.skipIf_mem (s : State) (c : Bool) :
    (s.skipIf c).mem = s.mem := rfl
@[simp] theorem State.skipIf_fb (s : State) (c : Bool) :
    (s.skipIf c).fb = s.fb := rfl
@[simp] theorem State.skipIf_status (s : State) (c : Bool) :
    (s.skipIf c).status = s.status := rfl
@[simp] theorem State.skipIf_keyPrev (s : State) (c : Bool) :
    (s.skipIf c).keyPrev = s.keyPrev := rfl
@[simp] theorem State.skipIf_keys (s : State) (c : Bool) :
    (s.skipIf c).keys = s.keys := rfl
@[simp] theorem State.skipIf_rnd (s : State) (c : Bool) :
    (s.skipIf c).rnd = s.rnd := rfl
@[simp] theorem State.skipIf_calls (s : State) (c : Bool) :
    (s.skipIf c).calls = s.calls := rfl
@[simp] theorem State.skipIf_draws (s : State) (c : Bool) :
    (s.skipIf c).draws = s.draws := rfl
@[simp] theorem State.skipIf_event (s : State) (c : Bool) :
    (s.skipIf c).event = s.event := rfl

/-! ## State.setByte -/

@[simp] theorem State.setByte_params (s : State) (a : Nat) (b : Byte) :
    (s.setByte a b).params = s.params := rfl
@[simp] theorem State.setByte_V (s : State) (a : Nat) (b : Byte) :
    (s.setByte a b).V = s.V := rfl
@[simp] theorem State.setByte_I (s : State) (a : Nat) (b : Byte) :
    (s.setByte a b).I = s.I := rfl
@[simp] theorem State.setByte_pc (s : State) (a : Nat) (b : Byte) :
    (s.setByte a b).pc = s.pc := rfl
@[simp] theorem State.setByte_stack (s : State) (a : Nat) (b : Byte) :
    (s.setByte a b).stack = s.stack := rfl
@[simp] theorem State.setByte_sp (s : State) (a : Nat) (b : Byte) :
    (s.setByte a b).sp = s.sp := rfl
@[simp] theorem State.setByte_DT (s : State) (a : Nat) (b : Byte) :
    (s.setByte a b).DT = s.DT := rfl
@[simp] theorem State.setByte_ST (s : State) (a : Nat) (b : Byte) :
    (s.setByte a b).ST = s.ST := rfl
@[simp] theorem State.setByte_mem (s : State) (a : Nat) (b : Byte) :
    (s.setByte a b).mem = memSet s.params a b s.mem := rfl
@[simp] theorem State.setByte_fb (s : State) (a : Nat) (b : Byte) :
    (s.setByte a b).fb = s.fb := rfl
@[simp] theorem State.setByte_status (s : State) (a : Nat) (b : Byte) :
    (s.setByte a b).status = s.status := rfl
@[simp] theorem State.setByte_keyPrev (s : State) (a : Nat) (b : Byte) :
    (s.setByte a b).keyPrev = s.keyPrev := rfl
@[simp] theorem State.setByte_keys (s : State) (a : Nat) (b : Byte) :
    (s.setByte a b).keys = s.keys := rfl
@[simp] theorem State.setByte_rnd (s : State) (a : Nat) (b : Byte) :
    (s.setByte a b).rnd = s.rnd := rfl
@[simp] theorem State.setByte_calls (s : State) (a : Nat) (b : Byte) :
    (s.setByte a b).calls = s.calls := rfl
@[simp] theorem State.setByte_draws (s : State) (a : Nat) (b : Byte) :
    (s.setByte a b).draws = s.draws := rfl
@[simp] theorem State.setByte_event (s : State) (a : Nat) (b : Byte) :
    (s.setByte a b).event = s.event := rfl

/-! ## State.emitUnknown -/

@[simp] theorem State.emitUnknown_params (s : State) (w : Word) :
    (s.emitUnknown w).params = s.params := rfl
@[simp] theorem State.emitUnknown_V (s : State) (w : Word) :
    (s.emitUnknown w).V = s.V := rfl
@[simp] theorem State.emitUnknown_I (s : State) (w : Word) :
    (s.emitUnknown w).I = s.I := rfl
@[simp] theorem State.emitUnknown_pc (s : State) (w : Word) :
    (s.emitUnknown w).pc = s.pc := rfl
@[simp] theorem State.emitUnknown_stack (s : State) (w : Word) :
    (s.emitUnknown w).stack = s.stack := rfl
@[simp] theorem State.emitUnknown_sp (s : State) (w : Word) :
    (s.emitUnknown w).sp = s.sp := rfl
@[simp] theorem State.emitUnknown_DT (s : State) (w : Word) :
    (s.emitUnknown w).DT = s.DT := rfl
@[simp] theorem State.emitUnknown_ST (s : State) (w : Word) :
    (s.emitUnknown w).ST = s.ST := rfl
@[simp] theorem State.emitUnknown_mem (s : State) (w : Word) :
    (s.emitUnknown w).mem = s.mem := rfl
@[simp] theorem State.emitUnknown_fb (s : State) (w : Word) :
    (s.emitUnknown w).fb = s.fb := rfl
@[simp] theorem State.emitUnknown_status (s : State) (w : Word) :
    (s.emitUnknown w).status = s.status := rfl
@[simp] theorem State.emitUnknown_keyPrev (s : State) (w : Word) :
    (s.emitUnknown w).keyPrev = s.keyPrev := rfl
@[simp] theorem State.emitUnknown_keys (s : State) (w : Word) :
    (s.emitUnknown w).keys = s.keys := rfl
@[simp] theorem State.emitUnknown_rnd (s : State) (w : Word) :
    (s.emitUnknown w).rnd = s.rnd := rfl
@[simp] theorem State.emitUnknown_calls (s : State) (w : Word) :
    (s.emitUnknown w).calls = s.calls := rfl
@[simp] theorem State.emitUnknown_draws (s : State) (w : Word) :
    (s.emitUnknown w).draws = s.draws := rfl
@[simp] theorem State.emitUnknown_event (s : State) (w : Word) :
    (s.emitUnknown w).event = some { pc := s.pc, word := w } := rfl

/-! ## State.afterTransfer -/

@[simp] theorem State.afterTransfer_params (s : State) (a : Addr) (x : Nibble) :
    (s.afterTransfer a x).params = s.params := rfl
@[simp] theorem State.afterTransfer_V (s : State) (a : Addr) (x : Nibble) :
    (s.afterTransfer a x).V = s.V := rfl
@[simp] theorem State.afterTransfer_I (s : State) (a : Addr) (x : Nibble) :
    (s.afterTransfer a x).I = (match s.params.ldstIncrement with
      | .none => s.I
      | .xPlusOne => Reg.put (BitVec.ofNat 12 ((a.toNat + x.toNat + 1) % 4096))) := rfl
@[simp] theorem State.afterTransfer_pc (s : State) (a : Addr) (x : Nibble) :
    (s.afterTransfer a x).pc = s.pc := rfl
@[simp] theorem State.afterTransfer_stack (s : State) (a : Addr) (x : Nibble) :
    (s.afterTransfer a x).stack = s.stack := rfl
@[simp] theorem State.afterTransfer_sp (s : State) (a : Addr) (x : Nibble) :
    (s.afterTransfer a x).sp = s.sp := rfl
@[simp] theorem State.afterTransfer_DT (s : State) (a : Addr) (x : Nibble) :
    (s.afterTransfer a x).DT = s.DT := rfl
@[simp] theorem State.afterTransfer_ST (s : State) (a : Addr) (x : Nibble) :
    (s.afterTransfer a x).ST = s.ST := rfl
@[simp] theorem State.afterTransfer_mem (s : State) (a : Addr) (x : Nibble) :
    (s.afterTransfer a x).mem = s.mem := rfl
@[simp] theorem State.afterTransfer_fb (s : State) (a : Addr) (x : Nibble) :
    (s.afterTransfer a x).fb = s.fb := rfl
@[simp] theorem State.afterTransfer_status (s : State) (a : Addr) (x : Nibble) :
    (s.afterTransfer a x).status = s.status := rfl
@[simp] theorem State.afterTransfer_keyPrev (s : State) (a : Addr) (x : Nibble) :
    (s.afterTransfer a x).keyPrev = s.keyPrev := rfl
@[simp] theorem State.afterTransfer_keys (s : State) (a : Addr) (x : Nibble) :
    (s.afterTransfer a x).keys = s.keys := rfl
@[simp] theorem State.afterTransfer_rnd (s : State) (a : Addr) (x : Nibble) :
    (s.afterTransfer a x).rnd = s.rnd := rfl
@[simp] theorem State.afterTransfer_calls (s : State) (a : Addr) (x : Nibble) :
    (s.afterTransfer a x).calls = s.calls := rfl
@[simp] theorem State.afterTransfer_draws (s : State) (a : Addr) (x : Nibble) :
    (s.afterTransfer a x).draws = s.draws := rfl
@[simp] theorem State.afterTransfer_event (s : State) (a : Addr) (x : Nibble) :
    (s.afterTransfer a x).event = s.event := rfl

/-! ## State.indexFlag -/

@[simp] theorem State.indexFlag_params (s : State) (a : Addr) (v : Byte) :
    (s.indexFlag a v).params = s.params := by
  unfold State.indexFlag
  split <;> rfl
@[simp] theorem State.indexFlag_I (s : State) (a : Addr) (v : Byte) :
    (s.indexFlag a v).I = s.I := by
  unfold State.indexFlag
  split <;> rfl
@[simp] theorem State.indexFlag_pc (s : State) (a : Addr) (v : Byte) :
    (s.indexFlag a v).pc = s.pc := by
  unfold State.indexFlag
  split <;> rfl
@[simp] theorem State.indexFlag_stack (s : State) (a : Addr) (v : Byte) :
    (s.indexFlag a v).stack = s.stack := by
  unfold State.indexFlag
  split <;> rfl
@[simp] theorem State.indexFlag_sp (s : State) (a : Addr) (v : Byte) :
    (s.indexFlag a v).sp = s.sp := by
  unfold State.indexFlag
  split <;> rfl
@[simp] theorem State.indexFlag_DT (s : State) (a : Addr) (v : Byte) :
    (s.indexFlag a v).DT = s.DT := by
  unfold State.indexFlag
  split <;> rfl
@[simp] theorem State.indexFlag_ST (s : State) (a : Addr) (v : Byte) :
    (s.indexFlag a v).ST = s.ST := by
  unfold State.indexFlag
  split <;> rfl
@[simp] theorem State.indexFlag_mem (s : State) (a : Addr) (v : Byte) :
    (s.indexFlag a v).mem = s.mem := by
  unfold State.indexFlag
  split <;> rfl
@[simp] theorem State.indexFlag_fb (s : State) (a : Addr) (v : Byte) :
    (s.indexFlag a v).fb = s.fb := by
  unfold State.indexFlag
  split <;> rfl
@[simp] theorem State.indexFlag_status (s : State) (a : Addr) (v : Byte) :
    (s.indexFlag a v).status = s.status := by
  unfold State.indexFlag
  split <;> rfl
@[simp] theorem State.indexFlag_keyPrev (s : State) (a : Addr) (v : Byte) :
    (s.indexFlag a v).keyPrev = s.keyPrev := by
  unfold State.indexFlag
  split <;> rfl
@[simp] theorem State.indexFlag_keys (s : State) (a : Addr) (v : Byte) :
    (s.indexFlag a v).keys = s.keys := by
  unfold State.indexFlag
  split <;> rfl
@[simp] theorem State.indexFlag_rnd (s : State) (a : Addr) (v : Byte) :
    (s.indexFlag a v).rnd = s.rnd := by
  unfold State.indexFlag
  split <;> rfl
@[simp] theorem State.indexFlag_calls (s : State) (a : Addr) (v : Byte) :
    (s.indexFlag a v).calls = s.calls := by
  unfold State.indexFlag
  split <;> rfl
@[simp] theorem State.indexFlag_draws (s : State) (a : Addr) (v : Byte) :
    (s.indexFlag a v).draws = s.draws := by
  unfold State.indexFlag
  split <;> rfl
@[simp] theorem State.indexFlag_event (s : State) (a : Addr) (v : Byte) :
    (s.indexFlag a v).event = s.event := by
  unfold State.indexFlag
  split <;> rfl

/-! ## takeFault -/

@[simp] theorem takeFault_params (k : FaultKind) (w : Option Word) (s : State) :
    (takeFault k w s).params = s.params := rfl
@[simp] theorem takeFault_V (k : FaultKind) (w : Option Word) (s : State) :
    (takeFault k w s).V = s.V := rfl
@[simp] theorem takeFault_I (k : FaultKind) (w : Option Word) (s : State) :
    (takeFault k w s).I = s.I := rfl
@[simp] theorem takeFault_pc (k : FaultKind) (w : Option Word) (s : State) :
    (takeFault k w s).pc = s.pc := rfl
@[simp] theorem takeFault_stack (k : FaultKind) (w : Option Word) (s : State) :
    (takeFault k w s).stack = s.stack := rfl
@[simp] theorem takeFault_sp (k : FaultKind) (w : Option Word) (s : State) :
    (takeFault k w s).sp = s.sp := rfl
@[simp] theorem takeFault_DT (k : FaultKind) (w : Option Word) (s : State) :
    (takeFault k w s).DT = s.DT := rfl
@[simp] theorem takeFault_ST (k : FaultKind) (w : Option Word) (s : State) :
    (takeFault k w s).ST = s.ST := rfl
@[simp] theorem takeFault_mem (k : FaultKind) (w : Option Word) (s : State) :
    (takeFault k w s).mem = s.mem := rfl
@[simp] theorem takeFault_fb (k : FaultKind) (w : Option Word) (s : State) :
    (takeFault k w s).fb = s.fb := rfl
@[simp] theorem takeFault_status (k : FaultKind) (w : Option Word) (s : State) :
    (takeFault k w s).status = .faulted { kind := k, pc := s.pc, word := w } := rfl
@[simp] theorem takeFault_keyPrev (k : FaultKind) (w : Option Word) (s : State) :
    (takeFault k w s).keyPrev = s.keyPrev := rfl
@[simp] theorem takeFault_keys (k : FaultKind) (w : Option Word) (s : State) :
    (takeFault k w s).keys = s.keys := rfl
@[simp] theorem takeFault_rnd (k : FaultKind) (w : Option Word) (s : State) :
    (takeFault k w s).rnd = s.rnd := rfl
@[simp] theorem takeFault_calls (k : FaultKind) (w : Option Word) (s : State) :
    (takeFault k w s).calls = s.calls := rfl
@[simp] theorem takeFault_draws (k : FaultKind) (w : Option Word) (s : State) :
    (takeFault k w s).draws = s.draws := rfl
@[simp] theorem takeFault_event (k : FaultKind) (w : Option Word) (s : State) :
    (takeFault k w s).event = s.event := rfl

/-! ## Register contents after an update -/

theorem State.regV_setV (s : State) (x y : Nibble) (b : Byte) :
    (s.setV x b).regV y = if y = x then Reg.put b else s.regV y := by
  by_cases h : y = x
  · subst h; simp [State.regV]
  · have : x.toNat ≠ y.toNat := fun e => h (BitVec.eq_of_toNat_eq e.symm)
    simp [State.regV, h, Vector.getElem_set_ne _ _ this]

@[simp] theorem State.regV_setV_same (s : State) (x : Nibble) (b : Byte) :
    (s.setV x b).regV x = Reg.put b := by simp [State.regV_setV]

theorem State.regV_setV_ne (s : State) {x y : Nibble} (b : Byte) (h : y ≠ x) :
    (s.setV x b).regV y = s.regV y := by simp [State.regV_setV, h]

theorem State.getV_setV (s : State) (x y : Nibble) (b : Byte) :
    (s.setV x b).getV y = if y = x then b else s.getV y := by
  by_cases h : y = x <;> simp [State.getV, State.regV_setV, Reg.put, h]

@[simp] theorem State.getV_setV_same (s : State) (x : Nibble) (b : Byte) :
    (s.setV x b).getV x = b := by simp [State.getV_setV]

/-- A register read depends on V alone. -/
theorem State.regV_congr {s t : State} (h : t.V = s.V) (x : Nibble) : t.regV x = s.regV x := by
  simp [State.regV, h]

@[simp] theorem Reg.put_val {w : Nat} (v : BitVec w) : (Reg.put v).val = v := rfl

@[simp] theorem Reg.put_written {w : Nat} (v : BitVec w) : (Reg.put v).written = true := rfl

@[simp] theorem Reg.put_readable {w : Nat} (p : Params) (v : BitVec w) :
    (Reg.put v).readable p = true := by
  unfold Reg.readable
  split <;> rfl

/-! ## What the other updates leave of V and of memory -/

@[simp] theorem State.regV_setI (s : State) (a : Addr) (x : Nibble) :
    (s.setI a).regV x = s.regV x := rfl
@[simp] theorem State.getV_setI (s : State) (a : Addr) (x : Nibble) :
    (s.setI a).getV x = s.getV x := rfl
@[simp] theorem State.regV_setDT (s : State) (b : Byte) (x : Nibble) :
    (s.setDT b).regV x = s.regV x := rfl
@[simp] theorem State.getV_setDT (s : State) (b : Byte) (x : Nibble) :
    (s.setDT b).getV x = s.getV x := rfl
@[simp] theorem State.regV_setST (s : State) (b : Byte) (x : Nibble) :
    (s.setST b).regV x = s.regV x := rfl
@[simp] theorem State.getV_setST (s : State) (b : Byte) (x : Nibble) :
    (s.setST b).getV x = s.getV x := rfl
@[simp] theorem State.regV_setFb (s : State) (g : Grid) (x : Nibble) :
    (s.setFb g).regV x = s.regV x := rfl
@[simp] theorem State.getV_setFb (s : State) (g : Grid) (x : Nibble) :
    (s.setFb g).getV x = s.getV x := rfl
@[simp] theorem State.regV_setPc (s : State) (v : Word) (x : Nibble) :
    (s.setPc v).regV x = s.regV x := rfl
@[simp] theorem State.getV_setPc (s : State) (v : Word) (x : Nibble) :
    (s.setPc v).getV x = s.getV x := rfl
@[simp] theorem State.regV_advance (s : State) (x : Nibble) :
    (s.advance).regV x = s.regV x := rfl
@[simp] theorem State.getV_advance (s : State) (x : Nibble) :
    (s.advance).getV x = s.getV x := rfl
@[simp] theorem State.regV_skipIf (s : State) (c : Bool) (x : Nibble) :
    (s.skipIf c).regV x = s.regV x := rfl
@[simp] theorem State.getV_skipIf (s : State) (c : Bool) (x : Nibble) :
    (s.skipIf c).getV x = s.getV x := rfl
@[simp] theorem State.regV_setByte (s : State) (a : Nat) (b : Byte) (x : Nibble) :
    (s.setByte a b).regV x = s.regV x := rfl
@[simp] theorem State.getV_setByte (s : State) (a : Nat) (b : Byte) (x : Nibble) :
    (s.setByte a b).getV x = s.getV x := rfl
@[simp] theorem State.regV_emitUnknown (s : State) (w : Word) (x : Nibble) :
    (s.emitUnknown w).regV x = s.regV x := rfl
@[simp] theorem State.getV_emitUnknown (s : State) (w : Word) (x : Nibble) :
    (s.emitUnknown w).getV x = s.getV x := rfl
@[simp] theorem State.regV_afterTransfer (s : State) (a : Addr) (y : Nibble) (x : Nibble) :
    (s.afterTransfer a y).regV x = s.regV x := rfl
@[simp] theorem State.getV_afterTransfer (s : State) (a : Addr) (y : Nibble) (x : Nibble) :
    (s.afterTransfer a y).getV x = s.getV x := rfl
@[simp] theorem State.byteAt_setV (s : State) (x : Nibble) (b : Byte) (n : Nat) :
    (s.setV x b).byteAt n = s.byteAt n := rfl
@[simp] theorem State.byteAt_setI (s : State) (a : Addr) (n : Nat) :
    (s.setI a).byteAt n = s.byteAt n := rfl
@[simp] theorem State.byteAt_setDT (s : State) (b : Byte) (n : Nat) :
    (s.setDT b).byteAt n = s.byteAt n := rfl
@[simp] theorem State.byteAt_setST (s : State) (b : Byte) (n : Nat) :
    (s.setST b).byteAt n = s.byteAt n := rfl
@[simp] theorem State.byteAt_setFb (s : State) (g : Grid) (n : Nat) :
    (s.setFb g).byteAt n = s.byteAt n := rfl
@[simp] theorem State.byteAt_setPc (s : State) (v : Word) (n : Nat) :
    (s.setPc v).byteAt n = s.byteAt n := rfl
@[simp] theorem State.byteAt_advance (s : State) (n : Nat) :
    (s.advance).byteAt n = s.byteAt n := rfl
@[simp] theorem State.byteAt_skipIf (s : State) (c : Bool) (n : Nat) :
    (s.skipIf c).byteAt n = s.byteAt n := rfl
@[simp] theorem State.byteAt_emitUnknown (s : State) (w : Word) (n : Nat) :
    (s.emitUnknown w).byteAt n = s.byteAt n := rfl
@[simp] theorem State.byteAt_afterTransfer (s : State) (a : Addr) (y : Nibble) (n : Nat) :
    (s.afterTransfer a y).byteAt n = s.byteAt n := rfl

/-- VF after Fx1E's flag step. -/
theorem State.indexFlag_regV (s : State) (a : Addr) (v : Byte) (r : Nibble) :
    (s.indexFlag a v).regV r =
      if r = vf ∧ s.params.fx1eFlag = .setClear then Reg.put (indexOverflowFlag a v) else s.regV r := by
  unfold State.indexFlag
  cases h : s.params.fx1eFlag <;> by_cases hr : r = vf <;> simp [State.regV_setV, hr]

end Sys2Proof.Machine
end

