-- ==== Sys2Proof/Laws/Ops.lean ====
section
/-! SUPPORT. What each shared operation can do, said once. -/

namespace Sys2Proof.Machine

/-! ## Except, as the meanings use it -/

@[simp] theorem except_bind_ok {α β : Type} (a : α) (f : α → Except FaultKind β) :
    (Except.ok a >>= f) = f a := rfl

@[simp] theorem except_bind_error {α β : Type} (k : FaultKind) (f : α → Except FaultKind β) :
    (Except.error k >>= f) = .error k := rfl

@[simp] theorem except_pure {α : Type} (a : α) : (pure a : Except FaultKind α) = .ok a := rfl

/-- Peeling one operation off a body that answers. -/
theorem except_bind_ok_iff {α β : Type} {r : Except FaultKind α} {f : α → Except FaultKind β} {b : β} :
    (r >>= f) = .ok b ↔ ∃ a, r = .ok a ∧ f a = .ok b := by
  cases r <;> simp

/-- Peeling one operation off a body that raises. -/
theorem except_bind_error_iff {α β : Type} {r : Except FaultKind α} {f : α → Except FaultKind β}
    {k : FaultKind} : (r >>= f) = .error k ↔ r = .error k ∨ ∃ a, r = .ok a ∧ f a = .error k := by
  cases r <;> simp

/-! ## Register reads -/

theorem readReg_ok {w : Nat} {p : Params} {r : Reg w} (n : RegName) (h : r.readable p = true) :
    readReg p n r = .ok r.val := by simp [readReg, h]

theorem readReg_error {w : Nat} {p : Params} {r : Reg w} (n : RegName) (h : r.readable p = false) :
    readReg p n r = .error (.unwrittenRead n) := by simp [readReg, h]

/-- Under RESET_REGS = zero every register can be read. -/
theorem Reg.readable_of_zero {w : Nat} {p : Params} (h : p.resetRegs = .zero) (r : Reg w) :
    r.readable p = true := by simp [Reg.readable, h]

theorem readV_ok {x : Nibble} {s : State} (h : (s.regV x).readable s.params = true) :
    readV x s = .ok (s.getV x) := readReg_ok _ h

theorem readV_error {x : Nibble} {s : State} (h : (s.regV x).readable s.params = false) :
    readV x s = .error (.unwrittenRead (.v x)) := readReg_error _ h

theorem readI_ok {s : State} (h : s.I.readable s.params = true) : readI s = .ok s.I.val :=
  readReg_ok _ h

theorem readI_error {s : State} (h : s.I.readable s.params = false) :
    readI s = .error (.unwrittenRead .i) := readReg_error _ h

theorem readDT_ok {s : State} (h : s.DT.readable s.params = true) : readDT s = .ok s.DT.val :=
  readReg_ok _ h

theorem readDT_error {s : State} (h : s.DT.readable s.params = false) :
    readDT s = .error (.unwrittenRead .dt) := readReg_error _ h

theorem readXY_ok {x y : Nibble} {s : State} (hx : (s.regV x).readable s.params = true)
    (hy : (s.regV y).readable s.params = true) : readXY x y s = .ok (s.getV x, s.getV y) := by
  simp [readXY, readV_ok hx, readV_ok hy]

theorem readReg_ok_iff {w : Nat} {p : Params} {n : RegName} {r : Reg w} {v : BitVec w} :
    readReg p n r = .ok v ↔ r.readable p = true ∧ v = r.val := by
  unfold readReg
  split
  · next h => simp [h, eq_comm]
  · next h => simp [h]

theorem readReg_error_iff {w : Nat} {p : Params} {n : RegName} {r : Reg w} {k : FaultKind} :
    readReg p n r = .error k ↔ r.readable p = false ∧ k = .unwrittenRead n := by
  unfold readReg
  split
  · next h => simp [h]
  · next h => simp [h, eq_comm]

/-- A read raises only under RESET_REGS = unwritten_faults. -/
theorem readReg_error_resetRegs {w : Nat} {p : Params} {n : RegName} {r : Reg w} {k : FaultKind}
    (h : readReg p n r = .error k) : p.resetRegs = .unwrittenFaults ∧ k = .unwrittenRead n := by
  obtain ⟨hr, hk⟩ := readReg_error_iff.mp h
  cases hp : p.resetRegs with
  | zero => rw [Reg.readable_of_zero hp] at hr; cases hr
  | unwrittenFaults => exact ⟨rfl, hk⟩

/-! ## Memory accesses -/

theorem memRead_ok {a : Nat} (s : State) (h : a ≤ 0xFFF) : memRead a s = .ok (s.byteAt a) := by
  simp [memRead, Nat.not_lt.mpr h]

theorem memRead_error {a : Nat} (s : State) (h : a > 0xFFF) :
    memRead a s = .error (.outOfRange a) := by simp [memRead, h]

theorem memWrite_ok {a : Nat} (b : Byte) (s : State) (h : a ≤ 0xFFF) :
    memWrite a b s = .ok (s.setByte a b) := by simp [memWrite, Nat.not_lt.mpr h]

theorem memWrite_error {a : Nat} (b : Byte) (s : State) (h : a > 0xFFF) :
    memWrite a b s = .error (.outOfRange a) := by simp [memWrite, h]

/-- A fetch that succeeds is inside memory and gives its two bytes, the high one first. -/
theorem fetch16_ok_iff {a : Nat} {s : State} {w : Word} :
    fetch16 a s = .ok w ↔ a ≤ 0xFFE ∧ w = wordOfBytes (s.byteAt a) (s.byteAt (a + 1)) := by
  unfold fetch16
  split
  · next h => simp; omega
  · split
    · next h h' => simp; omega
    · next h h' => simp only [Except.ok.injEq, eq_comm (a := w)]; constructor
                   · intro e; exact ⟨by omega, e⟩
                   · exact fun e => e.2

/-- The bytes a block read gives, when it stays inside memory. -/
theorem readBytes_ok (s : State) (n : Nat) : ∀ (a : Nat), (n = 0 ∨ a + n ≤ 0x1000) →
    readBytes a n s = .ok ((List.range n).map fun k => s.byteAt (a + k)) := by
  induction n with
  | zero => intro a _; rfl
  | succ n ih =>
    intro a h
    have ha : a ≤ 0xFFF := by omega
    rw [readBytes, memRead_ok s ha, except_bind_ok, ih (a + 1) (by omega), except_bind_ok,
      List.range_succ_eq_map]
    simp [Function.comp_def, Nat.add_assoc, Nat.add_comm 1]

/-- A block read that runs past memory raises at 0x1000. -/
theorem readBytes_error (s : State) (n : Nat) : ∀ (a : Nat), a ≤ 0x1000 → 0 < n → a + n > 0x1000 →
    readBytes a n s = .error (.outOfRange 0x1000) := by
  induction n with
  | zero => intro a _ h; omega
  | succ n ih =>
    intro a ha _ h
    rw [readBytes]
    by_cases h1 : a = 0x1000
    · subst h1; rw [memRead_error s (by omega)]; rfl
    · rw [memRead_ok s (by omega), except_bind_ok, ih (a + 1) (by omega) (by omega) (by omega)]; rfl

/-- What a state is that differs from `s` in memory alone, and there only from `a` to `a + n - 1`. -/
structure StoredAt (s t : State) (a n : Nat) : Prop where
  rest : t = { s with mem := t.mem }
  outside : ∀ b, b < a ∨ a + n ≤ b → t.byteAt b = s.byteAt b
  wf : Memory.wf s.params s.mem = true → Memory.wf t.params t.mem = true

theorem StoredAt.refl (s : State) (a : Nat) : StoredAt s s a 0 := ⟨rfl, fun _ _ => rfl, id⟩

theorem StoredAt.cons {s t : State} {a n : Nat} {b : Byte} (ha : a ≤ 0xFFF)
    (h : StoredAt (s.setByte a b) t (a + 1) n) : StoredAt s t a (n + 1) where
  rest := by rw [h.rest]; rfl
  outside c hc := by
    rw [h.outside c (by omega), State.byteAt_setByte_ne _ _ (by omega)]
  wf w := h.wf (memSet_wf s.params b (by omega) w)

/-- A block write inside memory: the bytes land, nothing else changes. -/
theorem writeBytes_ok (bs : List Byte) : ∀ (a : Nat) (s : State), (bs = [] ∨ a + bs.length ≤ 0x1000) →
    ∃ t, writeBytes a bs s = .ok t ∧ StoredAt s t a bs.length ∧
      ∀ k (h : k < bs.length), t.byteAt (a + k) = bs[k] := by
  induction bs with
  | nil => intro a s _; exact ⟨s, rfl, StoredAt.refl s a, fun k h => by simp at h⟩
  | cons b bs ih =>
    intro a s h
    simp only [List.length_cons, reduceCtorEq, false_or] at h
    obtain ⟨t, ht, hs, hb⟩ := ih (a + 1) (s.setByte a b)
      (by cases bs with | nil => exact .inl rfl | cons c cs => exact .inr (by simp at h ⊢; omega))
    refine ⟨t, by rw [writeBytes, memWrite_ok _ _ (by omega), except_bind_ok, ht], hs.cons (by omega), ?_⟩
    intro k hk
    cases k with
    | zero => rw [Nat.add_zero, hs.outside a (by omega)]; simp
    | succ k =>
      have := hb k (by simpa using hk)
      simpa [Nat.add_assoc, Nat.add_comm 1] using this

/-- A block write that runs past memory raises at 0x1000. -/
theorem writeBytes_error (bs : List Byte) : ∀ (a : Nat) (s : State), a ≤ 0x1000 → bs ≠ [] →
    a + bs.length > 0x1000 → writeBytes a bs s = .error (.outOfRange 0x1000) := by
  induction bs with
  | nil => intro a s _ h; exact absurd rfl h
  | cons b bs ih =>
    intro a s ha _ h
    rw [List.length_cons] at h
    rw [writeBytes]
    by_cases h1 : a = 0x1000
    · subst h1; rw [memWrite_error _ _ (by omega)]; rfl
    · rw [memWrite_ok _ _ (by omega), except_bind_ok]
      exact ih (a + 1) _ (by omega) (by rintro rfl; simp at h; omega) (by omega)

/-! ## Block transfers -/

/-- Fx55's loop inside memory, when the registers can be read: the bytes land, nothing else changes. -/
theorem storeRegs_ok (a n : Nat) : ∀ (k : Nat) (s : State), k + n ≤ 16 → (n = 0 ∨ a + k + n ≤ 0x1000) →
    (∀ j, k ≤ j → j < k + n → (s.regV (BitVec.ofNat 4 j)).readable s.params = true) →
    ∃ t, storeRegs a k n s = .ok t ∧ StoredAt s t (a + k) n ∧
      ∀ j, k ≤ j → j < k + n → t.byteAt (a + j) = s.getV (BitVec.ofNat 4 j) := by
  induction n with
  | zero => intro k s _ _ _; exact ⟨s, rfl, StoredAt.refl s _, fun j _ _ => by omega⟩
  | succ n ih =>
    intro k s hk h hr
    have h0 := hr k (Nat.le_refl k) (by omega)
    obtain ⟨t, ht, hs, hb⟩ := ih (k + 1) (s.setByte (a + k) (s.getV (BitVec.ofNat 4 k))) (by omega)
      (by omega) (fun j h1 h2 => hr j (by omega) (by omega))
    refine ⟨t, ?_, ?_, ?_⟩
    · rw [storeRegs, readV_ok h0, except_bind_ok, memWrite_ok _ _ (by omega), except_bind_ok, ht]
    · exact StoredAt.cons (by omega) (by simpa [Nat.add_assoc] using hs)
    · intro j h1 h2
      by_cases hj : j = k
      · subst hj; rw [hs.outside _ (by omega)]; simp
      · exact hb j (by omega) (by omega)

/-- Fx55's loop past memory, when the registers up to the store at 0x1000 can be read: it raises there,
whatever the registers above. -/
theorem storeRegs_error (a n : Nat) : ∀ (k : Nat) (s : State), k + n ≤ 16 → a + k ≤ 0x1000 → 0 < n →
    a + k + n > 0x1000 →
    (∀ j, k ≤ j → j < k + n → a + j ≤ 0x1000 →
      (s.regV (BitVec.ofNat 4 j)).readable s.params = true) →
    storeRegs a k n s = .error (.outOfRange 0x1000) := by
  induction n with
  | zero => intro k s _ _ h; omega
  | succ n ih =>
    intro k s hk ha _ h hr
    have h0 := hr k (Nat.le_refl k) (by omega) ha
    rw [storeRegs, readV_ok h0, except_bind_ok]
    by_cases h1 : a + k = 0x1000
    · rw [h1, memWrite_error _ _ (by omega)]; rfl
    · rw [memWrite_ok _ _ (by omega), except_bind_ok]
      exact ih (k + 1) _ (by omega) (by omega) (by omega) (by omega)
        (fun j h1 h2 h3 => hr j (by omega) (by omega) h3)

/-- Fx55's loop at a register that can not be read, when the registers before it can and their stores
stay inside memory: it names that register. -/
theorem storeRegs_unread (a n m : Nat) : ∀ (k : Nat) (s : State), k + n ≤ 16 → k ≤ m → m < k + n →
    a + m ≤ 0x1000 →
    (∀ j, k ≤ j → j < m → (s.regV (BitVec.ofNat 4 j)).readable s.params = true) →
    (s.regV (BitVec.ofNat 4 m)).readable s.params = false →
    storeRegs a k n s = .error (.unwrittenRead (.v (BitVec.ofNat 4 m))) := by
  induction n with
  | zero => intro k s _ _ _; omega
  | succ n ih =>
    intro k s hk h1 h2 ha hr hm
    by_cases hkm : k = m
    · subst hkm; rw [storeRegs, readV_error hm]; rfl
    · rw [storeRegs, readV_ok (hr k (Nat.le_refl k) (by omega)), except_bind_ok,
        memWrite_ok _ _ (by omega), except_bind_ok]
      exact ih (k + 1) _ (by omega) (by omega) (by omega) ha (fun j h1 h2 => hr j (by omega) h2) hm

/-- Fx65's loop inside memory: the registers are loaded, nothing else changes. -/
theorem loadRegs_ok (a n : Nat) : ∀ (k : Nat) (s : State), k + n ≤ 16 → (n = 0 ∨ a + k + n ≤ 0x1000) →
    ∃ t, loadRegs a k n s = .ok t ∧ t = { s with V := t.V } ∧
      (∀ j, k ≤ j → j < k + n → t.regV (BitVec.ofNat 4 j) = Reg.put (s.byteAt (a + j))) ∧
      ∀ j, j < 16 → j < k ∨ k + n ≤ j → t.regV (BitVec.ofNat 4 j) = s.regV (BitVec.ofNat 4 j) := by
  induction n with
  | zero => intro k s _ _; exact ⟨s, rfl, rfl, fun j _ _ => by omega, fun j _ _ => rfl⟩
  | succ n ih =>
    intro k s hk h
    obtain ⟨t, ht, he, h1, h2⟩ := ih (k + 1) (s.setV (BitVec.ofNat 4 k) (s.byteAt (a + k))) (by omega)
      (by omega)
    have ne : ∀ j, j < 16 → j ≠ k → (BitVec.ofNat 4 j) ≠ BitVec.ofNat 4 k := by
      intro j hj hjk e
      have := congrArg BitVec.toNat e
      simp only [BitVec.toNat_ofNat] at this
      omega
    refine ⟨t, ?_, ?_, ?_, ?_⟩
    · rw [loadRegs, memRead_ok _ (by omega), except_bind_ok, ht]
    · rw [he]; rfl
    · intro j hj hj'
      by_cases hjk : j = k
      · subst hjk; rw [h2 j (by omega) (by omega)]; simp
      · exact h1 j (by omega) (by omega)
    · intro j hj hj'
      rw [h2 j hj (by omega), State.regV_setV_ne _ _ (ne j hj (by omega))]

/-- Fx65's loop past memory: it raises at 0x1000. -/
theorem loadRegs_error (a n : Nat) : ∀ (k : Nat) (s : State), a + k ≤ 0x1000 → 0 < n →
    a + k + n > 0x1000 → loadRegs a k n s = .error (.outOfRange 0x1000) := by
  induction n with
  | zero => intro k s _ h; omega
  | succ n ih =>
    intro k s ha _ h
    rw [loadRegs]
    by_cases h1 : a + k = 0x1000
    · rw [h1, memRead_error _ (by omega)]; rfl
    · rw [memRead_ok _ (by omega), except_bind_ok]
      exact ih (k + 1) _ (by omega) (by omega) (by omega)

/-! ## What a block write or transfer that answers has done -/

theorem writeBytes_storedAt (bs : List Byte) : ∀ {a : Nat} {s t : State},
    writeBytes a bs s = .ok t → StoredAt s t a bs.length := by
  induction bs with
  | nil => intro a s t h; cases h; exact StoredAt.refl _ _
  | cons b bs ih =>
    intro a s t h
    obtain ⟨u, hu, h⟩ := except_bind_ok_iff.mp (by simpa only [writeBytes] using h)
    unfold memWrite at hu
    split at hu
    · cases hu
    · next ha => cases hu; exact StoredAt.cons (by omega) (ih h)

theorem storeRegs_storedAt (a n : Nat) : ∀ {k : Nat} {s t : State},
    storeRegs a k n s = .ok t → StoredAt s t (a + k) n := by
  induction n with
  | zero => intro k s t h; cases h; exact StoredAt.refl _ _
  | succ n ih =>
    intro k s t h
    obtain ⟨b, -, h⟩ := except_bind_ok_iff.mp (by simpa only [storeRegs] using h)
    obtain ⟨u, hu, h⟩ := except_bind_ok_iff.mp h
    unfold memWrite at hu
    split at hu
    · cases hu
    · next ha =>
      cases hu
      exact StoredAt.cons (by omega) (by simpa only [Nat.add_assoc] using ih h)

/-- Fx65's loop changes V alone: the registers outside `[k, k + n)` are as before, and one that changed
has been written. -/
theorem loadRegs_loaded (a n : Nat) : ∀ {k : Nat} {s t : State}, k + n ≤ 16 →
    loadRegs a k n s = .ok t → t = { s with V := t.V } ∧
      (∀ x : Nibble, x.toNat < k ∨ k + n ≤ x.toNat → t.regV x = s.regV x) ∧
      ∀ x, t.regV x = s.regV x ∨ (t.regV x).written = true := by
  induction n with
  | zero => intro k s t _ h; cases h; exact ⟨rfl, fun _ _ => rfl, fun _ => .inl rfl⟩
  | succ n ih =>
    intro k s t hk h
    obtain ⟨b, -, h⟩ := except_bind_ok_iff.mp (by simpa only [loadRegs] using h)
    obtain ⟨h1, h2, h3⟩ := ih (by omega) h
    refine ⟨by rw [h1]; rfl, fun x hx => ?_, fun x => ?_⟩
    · rw [h2 x (by omega), State.regV_setV_ne]
      rintro rfl
      simp only [BitVec.toNat_ofNat] at hx
      omega
    · rcases h3 x with h | h
      · rw [h, State.regV_setV]
        split
        · exact .inr rfl
        · exact .inl rfl
      · exact .inr h

/-- The faults of the block operations, for addresses inside memory at the start. -/
theorem readBytes_error_kind (n : Nat) : ∀ {a : Nat} {s : State} {k : FaultKind}, a ≤ 0x1000 →
    readBytes a n s = .error k → k = .outOfRange 0x1000 := by
  intro a s k ha h
  by_cases hn : n = 0 ∨ a + n ≤ 0x1000
  · rw [readBytes_ok s n a hn] at h; cases h
  · rw [readBytes_error s n a ha (by omega) (by omega)] at h; cases h; rfl

theorem writeBytes_error_kind {bs : List Byte} {a : Nat} {s : State} {k : FaultKind} (ha : a ≤ 0x1000)
    (h : writeBytes a bs s = .error k) : k = .outOfRange 0x1000 := by
  by_cases hn : bs = [] ∨ a + bs.length ≤ 0x1000
  · obtain ⟨t, ht, -⟩ := writeBytes_ok bs a s hn; rw [ht] at h; cases h
  · rw [not_or] at hn
    rw [writeBytes_error bs a s ha hn.1 (by omega)] at h; cases h; rfl

theorem loadRegs_error_kind {n a : Nat} {s : State} {k : FaultKind} (hn : n ≤ 16) (ha : a ≤ 0xFFF)
    (h : loadRegs a 0 n s = .error k) : k = .outOfRange 0x1000 := by
  by_cases hf : n = 0 ∨ a + n ≤ 0x1000
  · obtain ⟨t, ht, -⟩ := loadRegs_ok a n 0 s (by omega) (by omega); rw [ht] at h; cases h
  · rw [loadRegs_error a n 0 s (by omega) (by omega) (by omega)] at h; cases h; rfl

/-- Fx55's loop raises at 0x1000, or, under RESET_REGS = unwritten_faults, the first register that can
not be read. -/
theorem storeRegs_error_kind (a n : Nat) : ∀ {j : Nat} {s : State} {k : FaultKind}, a + j ≤ 0x1000 →
    storeRegs a j n s = .error k →
    k = .outOfRange 0x1000 ∨ (s.params.resetRegs = .unwrittenFaults ∧
      ∃ m, j ≤ m ∧ m < j + n ∧ k = .unwrittenRead (.v (BitVec.ofNat 4 m)) ∧
        (s.regV (BitVec.ofNat 4 m)).readable s.params = false ∧
        ∀ l, j ≤ l → l < m → (s.regV (BitVec.ofNat 4 l)).readable s.params = true) := by
  induction n with
  | zero => intro j s k _ h; cases h
  | succ n ih =>
    intro j s k ha h
    rcases except_bind_error_iff.mp (by simpa only [storeRegs] using h) with h | ⟨b, hb, h⟩
    · obtain ⟨h1, h2⟩ := readReg_error_iff.mp h
      exact .inr ⟨(readReg_error_resetRegs h).1, j, Nat.le_refl j, by omega, h2, h1,
        fun l _ _ => by omega⟩
    · rcases except_bind_error_iff.mp h with h | ⟨u, hu, h⟩
      · unfold memWrite at h
        split at h
        · cases h; exact .inl (by congr 1; omega)
        · cases h
      · unfold memWrite at hu
        split at hu
        · cases hu
        · cases hu
          rcases ih (j := j + 1) (s := s.setByte (a + j) b) (by omega) h with h | ⟨h0, m, h1, h2, h3, h4, h5⟩
          · exact .inl h
          · refine .inr ⟨h0, m, by omega, by omega, h3, h4, fun l h6 h7 => ?_⟩
            by_cases hl : l = j
            · subst hl; exact (readReg_ok_iff.mp hb).1
            · exact h5 l (by omega) h7

/-! ## The stack -/

theorem push_ok {s : State} (v : Word) (h : s.sp.val < 16) :
    push v s =
      .ok { s with stack := s.stack.set s.sp.val v h, sp := ⟨s.sp.val + 1, by omega⟩ } := by
  simp [push, h]

theorem push_error {s : State} (v : Word) (h : s.sp.val = 16) :
    push v s = .error .stackOverflow := by simp [push, h]

/-- A pop that answers takes the top slot and leaves every slot's contents. -/
theorem pop_cases (s : State) :
    (s.sp.val = 0 ∧ pop s = .error .stackUnderflow) ∨
    (∃ (_ : 0 < s.sp.val) (h : s.sp.val - 1 < 16), pop s = .ok (s.stack[s.sp.val - 1]'h,
      { s with sp := ⟨s.sp.val - 1, by omega⟩ })) := by
  have hs := s.sp.isLt
  by_cases h : s.sp.val = 0
  · exact .inl ⟨h, by simp [pop, h]⟩
  · exact .inr ⟨by omega, by omega, by simp [pop, h]⟩

/-! ## Faults and the end of an instruction -/

@[simp] theorem commit_ok (i : Instr) (s t : State) : commit i s (.ok t) = .next t := rfl

@[simp] theorem commit_error (i : Instr) (s : State) (k : FaultKind) :
    commit i s (.error k) = .next (takeFault k (some (encode i)) s) := rfl

/-- An instruction's step always answers a next state: its writes, or the fault and none of them. -/
theorem commit_cases (i : Instr) (s : State) (r : Except FaultKind State) :
    (∃ t, r = .ok t ∧ commit i s r = .next t) ∨
    ∃ k, r = .error k ∧ commit i s r = .next (takeFault k (some (encode i)) s) := by
  cases r with
  | ok t => exact .inl ⟨t, rfl, rfl⟩
  | error k => exact .inr ⟨k, rfl, rfl⟩

/-- What a next state after an instruction's step can be. -/
theorem commit_next_iff {i : Instr} {s t : State} {r : Except FaultKind State} :
    commit i s r = .next t ↔ r = .ok t ∨ ∃ k, r = .error k ∧ t = takeFault k (some (encode i)) s := by
  cases r <;> simp [eq_comm]

/-! ## Keys -/

theorem mem_eventKeys (s : State) (k : Nibble) : k ∈ eventKeys s ↔ keyEvent s k = true := by
  simp only [eventKeys, List.mem_filter, List.mem_map, List.mem_range, and_iff_right_iff_imp]
  exact fun _ => ⟨k.toNat, k.isLt, by simp⟩

theorem pickKey_mem {n : Nat} {ks : List Nibble} {k : Nibble} (h : pickKey n ks = some k) : k ∈ ks := by
  match ks, h with
  | [a], h => simp [pickKey] at h; simp [h]
  | a :: b :: rest, h => exact List.mem_of_getElem? h

/-- Every qualifying key is taken for some value of the free choice (R213: any of them). -/
theorem exists_pickKey_eq {ks : List Nibble} {k : Nibble} (h : k ∈ ks) : ∃ n, pickKey n ks = some k := by
  obtain ⟨n, hn, rfl⟩ := List.getElem_of_mem h
  match ks with
  | [a] =>
    have h0 : n = 0 := by simpa using hn
    subst h0
    exact ⟨0, rfl⟩
  | a :: b :: cs =>
    exact ⟨n, by simp only [pickKey, Nat.mod_eq_of_lt hn, List.getElem?_eq_getElem hn]⟩

theorem pickKey_eq_none_iff {n : Nat} {ks : List Nibble} : pickKey n ks = none ↔ ks = [] := by
  match ks with
  | [] => simp [pickKey]
  | [a] => simp [pickKey]
  | a :: b :: rest =>
    have : n % (a :: b :: rest).length < (a :: b :: rest).length := Nat.mod_lt _ (by simp)
    simp [pickKey] at this ⊢
    exact this

end Sys2Proof.Machine
end

