-- ==== Sys2Proof/Laws/Cycle.lean ====
section
/-! SUPPORT. What one host call can do, said once (spec/60_exceptions.md R242, R243;
spec/30_encoding.md R79). -/

namespace Sys2Proof.Machine

/-! ## The host's next call -/

theorem takeCall_cons {s : State} {c : HostCall} {rest : List HostCall} (h : s.calls = c :: rest) :
    takeCall s = (c, { s with calls := rest, event := none, draws := s.draws + 1 }) := by
  simp [takeCall, h]

theorem takeCall_nil {s : State} (h : s.calls = []) :
    takeCall s = (freeCall s.draws, { s with event := none, draws := s.draws + 1 }) := by
  simp [takeCall, h]

/-- A free call is a tick or a step. -/
theorem freeCall_cases (n : Nat) :
    freeCall n = .tick ∨ freeCall n = .step (Config.freeKeys n) (Config.freeRnd n) := by
  unfold freeCall; split
  · exact .inl rfl
  · exact .inr rfl

/-- Taking a call changes the queue, the event and the count alone. -/
theorem takeCall_state (s : State) :
    ∃ rest, (takeCall s).2 = { s with calls := rest, event := none, draws := s.draws + 1 } := by
  cases h : s.calls with
  | nil => exact ⟨[], by rw [takeCall_nil h, ← h]⟩
  | cons c rest => exact ⟨rest, by rw [takeCall_cons h]⟩

/-- The queue from its first step call begins with a step call. -/
theorem fromStep_eq_step (keys : Keys) (rnd : Byte) (cs : List HostCall) :
    ∃ ks b rest, fromStep keys rnd cs = .step ks b :: rest := by
  induction cs with
  | nil => exact ⟨_, _, _, rfl⟩
  | cons c cs ih =>
    cases c with
    | tick => exact ih
    | step ks b => exact ⟨ks, b, cs, rfl⟩

/-! ## The key latch -/

theorem latchKeys_running {t : State} (h : t.status = .running) :
    latchKeys t = { t with keyPrev := t.keys } := by simp [latchKeys, h]

theorem latchKeys_faulted {t : State} {r : FaultRecord} (h : t.status = .faulted r) :
    latchKeys t = t := by simp [latchKeys, h]

@[simp] theorem endStep_next (t : State) : endStep (.next t) = .next (latchKeys t) := rfl

/-! ## Ticks -/

theorem tick_running {s : State} (h : s.status = .running) :
    tick s = { s with DT := tickTimer s.params s.DT, ST := tickTimer s.params s.ST } := by
  simp [tick, h]

theorem tick_faulted {s : State} {r : FaultRecord} (h : s.status = .faulted r) : tick s = s := by
  simp [tick, h]

/-- A timer's tick never changes its mark, and takes 1 from a readable nonzero timer. -/
theorem tickTimer_cases (p : Params) (r : Reg 8) :
    (tickTimer p r = r) ∨
    (r.readable p = true ∧ r.val ≠ 0x00#8 ∧
      tickTimer p r = { val := r.val - 0x01#8, written := r.written }) := by
  unfold tickTimer
  split
  · next h => exact .inr ⟨h.1, h.2, rfl⟩
  · exact .inl rfl

/-! ## The sound signal -/

/-- A readable ST sounds while it is nonzero. -/
theorem State.sound_of_readable {s : State} (h : s.ST.readable s.params = true) :
    s.sound = true ↔ s.ST.val ≠ 0x00#8 := by simp [State.sound, h]

/-- An unreadable ST is silent. -/
theorem State.sound_of_unreadable {s : State} (h : s.ST.readable s.params = false) :
    s.sound = false := by simp [State.sound, h]

/-! ## The step -/

theorem step_tick {s : State} {rest : List HostCall} (h : s.calls = .tick :: rest) :
    step s = .next (tick { s with calls := rest, event := none, draws := s.draws + 1 }) := by
  simp [step, hostCall, takeCall_cons h]

theorem step_step {s : State} {keys : Keys} {rnd : Byte} {rest : List HostCall}
    (h : s.calls = .step keys rnd :: rest) :
    step s = coreStep exec keys rnd
      { s with calls := rest, event := none, draws := s.draws + 1 } := by
  simp [step, hostCall, takeCall_cons h]

/-- With no call queued, the step is the one of the free call. -/
theorem step_nil {s : State} (h : s.calls = []) :
    step s = step { s with calls := [freeCall s.draws] } := by
  simp [step, hostCall, takeCall, h]

/-- Every step is a tick of the timers or a step call on the state with the call taken. -/
theorem step_cases (s : State) :
    ∃ rest, let u : State := { s with calls := rest, event := none, draws := s.draws + 1 }
      step s = .next (tick u) ∨ ∃ keys rnd, step s = coreStep exec keys rnd u := by
  cases h : s.calls with
  | nil =>
    refine ⟨[], ?_⟩
    rw [step_nil h]
    rcases freeCall_cases s.draws with e | e
    · exact .inl (step_tick (by rw [e]))
    · exact .inr ⟨_, _, step_step (by rw [e])⟩
  | cons c rest =>
    cases c with
    | tick => exact ⟨rest, .inl (step_tick h)⟩
    | step keys rnd => exact ⟨rest, .inr ⟨keys, rnd, step_step h⟩⟩

/-- A step call on a Running VM fetches and runs. -/
theorem coreStep_running {run : Instr → State → StepOutcome} (keys : Keys) (rnd : Byte) {s : State}
    (h : s.status = .running) :
    coreStep run keys rnd s = endStep (fetchAndRun run (supply keys rnd s)) := by
  simp [coreStep, h]

/-- A step call on a Faulted VM answers the terminal fault. -/
theorem coreStep_faulted {run : Instr → State → StepOutcome} (keys : Keys) (rnd : Byte) {s : State}
    {r : FaultRecord} (h : s.status = .faulted r) :
    coreStep run keys rnd s = .fault (.vmFaulted r) := by simp [coreStep, h]

/-- What follows the fetch: its fault, the instruction, or the unknown word. -/
theorem fetchAndRun_cases (run : Instr → State → StepOutcome) (s : State) :
    (∃ k, fetch16 s.pc.toNat s = .error k ∧ fetchAndRun run s = .next (takeFault k none s)) ∨
    (∃ w i, fetch16 s.pc.toNat s = .ok w ∧ decode w = .ok i ∧ fetchAndRun run s = run i s) ∨
    (∃ w e, fetch16 s.pc.toNat s = .ok w ∧ decode w = .error e ∧
      fetchAndRun run s = .next (unknownWord w s)) := by
  cases hf : fetch16 s.pc.toNat s with
  | error k => exact .inl ⟨k, rfl, by simp [fetchAndRun, hf]⟩
  | ok w =>
    cases hd : decode w with
    | ok i => exact .inr (.inl ⟨w, i, rfl, hd, by simp [fetchAndRun, hf, hd]⟩)
    | error e => exact .inr (.inr ⟨w, e, rfl, hd, by simp [fetchAndRun, hf, hd, execUnknown]⟩)

/-- The fetch depends on memory and the parameters alone. -/
theorem fetch16_congr {s t : State} (hm : t.mem = s.mem) (hp : t.params = s.params) (a : Nat) :
    fetch16 a t = fetch16 a s := by simp [fetch16, State.byteAt_congr hm hp]

@[simp] theorem supply_pc (keys : Keys) (rnd : Byte) (s : State) : (supply keys rnd s).pc = s.pc := rfl

@[simp] theorem fetch16_supply (a : Nat) (keys : Keys) (rnd : Byte) (s : State) :
    fetch16 a (supply keys rnd s) = fetch16 a s := fetch16_congr rfl rfl a

end Sys2Proof.Machine
end

