-- ==== Sys2Proof/Laws/Decode.lean ====
section
/-! SUPPORT. The fields of an assembled word, the word its fields assemble, and masks
(spec/30_encoding.md R70, R71, R73). -/

namespace Sys2Proof

/-! ## The value of a field -/

theorem opOf_toNat (w : Word) : (opOf w).toNat = w.toNat / 0x1000 % 16 := by
  simp [opOf, Nat.shiftRight_eq_div_pow]

theorem xOf_toNat (w : Word) : (xOf w).toNat = w.toNat / 0x100 % 16 := by
  simp [xOf, Nat.shiftRight_eq_div_pow]

theorem yOf_toNat (w : Word) : (yOf w).toNat = w.toNat / 0x10 % 16 := by
  simp [yOf, Nat.shiftRight_eq_div_pow]

theorem nOf_toNat (w : Word) : (nOf w).toNat = w.toNat % 16 := by simp [nOf]

theorem kkOf_toNat (w : Word) : (kkOf w).toNat = w.toNat % 0x100 := by simp [kkOf]

theorem nnnOf_toNat (w : Word) : (nnnOf w).toNat = w.toNat % 0x1000 := by simp [nnnOf]

theorem highByte_toNat (w : Word) : (highByte w).toNat = w.toNat / 0x100 := by
  simp [highByte, Nat.shiftRight_eq_div_pow]; omega

theorem lowByte_toNat (w : Word) : (lowByte w).toNat = w.toNat % 0x100 := by simp [lowByte]

theorem wordOfBytes_toNat (hi lo : Byte) : (wordOfBytes hi lo).toNat = hi.toNat * 0x100 + lo.toNat := by
  simp [wordOfBytes]; omega

/-! ## The value of an assembled word -/

theorem wordNnn_toNat (op : Nibble) (nnn : Addr) :
    (wordNnn op nnn).toNat = op.toNat * 0x1000 + nnn.toNat := by simp [wordNnn]; omega

theorem wordXKk_toNat (op x : Nibble) (kk : Byte) :
    (wordXKk op x kk).toNat = op.toNat * 0x1000 + x.toNat * 0x100 + kk.toNat := by
  simp [wordXKk]; omega

theorem wordXYN_toNat (op x y n : Nibble) :
    (wordXYN op x y n).toNat = op.toNat * 0x1000 + x.toNat * 0x100 + y.toNat * 0x10 + n.toNat := by
  simp [wordXYN]; omega

/-! ## The fields of an assembled word -/

@[simp] theorem opOf_wordNnn (op : Nibble) (nnn : Addr) : opOf (wordNnn op nnn) = op := by
  apply BitVec.eq_of_toNat_eq; rw [opOf_toNat, wordNnn_toNat]; omega

@[simp] theorem nnnOf_wordNnn (op : Nibble) (nnn : Addr) : nnnOf (wordNnn op nnn) = nnn := by
  apply BitVec.eq_of_toNat_eq; rw [nnnOf_toNat, wordNnn_toNat]; omega

@[simp] theorem opOf_wordXKk (op x : Nibble) (kk : Byte) : opOf (wordXKk op x kk) = op := by
  apply BitVec.eq_of_toNat_eq; rw [opOf_toNat, wordXKk_toNat]; omega

@[simp] theorem xOf_wordXKk (op x : Nibble) (kk : Byte) : xOf (wordXKk op x kk) = x := by
  apply BitVec.eq_of_toNat_eq; rw [xOf_toNat, wordXKk_toNat]; omega

@[simp] theorem kkOf_wordXKk (op x : Nibble) (kk : Byte) : kkOf (wordXKk op x kk) = kk := by
  apply BitVec.eq_of_toNat_eq; rw [kkOf_toNat, wordXKk_toNat]; omega

@[simp] theorem opOf_wordXYN (op x y n : Nibble) : opOf (wordXYN op x y n) = op := by
  apply BitVec.eq_of_toNat_eq; rw [opOf_toNat, wordXYN_toNat]; omega

@[simp] theorem xOf_wordXYN (op x y n : Nibble) : xOf (wordXYN op x y n) = x := by
  apply BitVec.eq_of_toNat_eq; rw [xOf_toNat, wordXYN_toNat]; omega

@[simp] theorem yOf_wordXYN (op x y n : Nibble) : yOf (wordXYN op x y n) = y := by
  apply BitVec.eq_of_toNat_eq; rw [yOf_toNat, wordXYN_toNat]; omega

@[simp] theorem nOf_wordXYN (op x y n : Nibble) : nOf (wordXYN op x y n) = n := by
  apply BitVec.eq_of_toNat_eq; rw [nOf_toNat, wordXYN_toNat]; omega

/-! ## The word its fields assemble -/

theorem wordNnn_of_fields {op : Nibble} (w : Word) (h : (opOf w).toNat = op.toNat) :
    wordNnn op (nnnOf w) = w := by
  apply BitVec.eq_of_toNat_eq; rw [opOf_toNat] at h; rw [wordNnn_toNat, nnnOf_toNat]; omega

theorem wordXKk_of_fields {op : Nibble} (w : Word) (h : (opOf w).toNat = op.toNat) :
    wordXKk op (xOf w) (kkOf w) = w := by
  apply BitVec.eq_of_toNat_eq; rw [opOf_toNat] at h
  rw [wordXKk_toNat, xOf_toNat, kkOf_toNat]; omega

theorem wordXYN_of_fields {op : Nibble} (w : Word) (h : (opOf w).toNat = op.toNat) :
    wordXYN op (xOf w) (yOf w) (nOf w) = w := by
  apply BitVec.eq_of_toNat_eq; rw [opOf_toNat] at h
  rw [wordXYN_toNat, xOf_toNat, yOf_toNat, nOf_toNat]; omega

@[simp] theorem wordOfBytes_bytes (w : Word) : wordOfBytes (highByte w) (lowByte w) = w := by
  apply BitVec.eq_of_toNat_eq; rw [wordOfBytes_toNat, highByte_toNat, lowByte_toNat]; omega

@[simp] theorem highByte_wordOfBytes (hi lo : Byte) : highByte (wordOfBytes hi lo) = hi := by
  apply BitVec.eq_of_toNat_eq; rw [highByte_toNat, wordOfBytes_toNat]; omega

@[simp] theorem lowByte_wordOfBytes (hi lo : Byte) : lowByte (wordOfBytes hi lo) = lo := by
  apply BitVec.eq_of_toNat_eq; rw [lowByte_toNat, wordOfBytes_toNat]; omega

/-! ## Words as appended fields, and masks -/

theorem wordNnn_eq_append (op : Nibble) (nnn : Addr) : wordNnn op nnn = (op ++ nnn : BitVec (4 + 12)) := by
  apply BitVec.eq_of_toNat_eq
  rw [wordNnn_toNat, BitVec.toNat_append, ← Nat.shiftLeft_add_eq_or_of_lt nnn.isLt, Nat.shiftLeft_eq]

theorem wordXKk_eq_append (op x : Nibble) (kk : Byte) :
    wordXKk op x kk = (op ++ x ++ kk : BitVec (4 + 4 + 8)) := by
  apply BitVec.eq_of_toNat_eq
  rw [wordXKk_toNat, BitVec.toNat_append, ← Nat.shiftLeft_add_eq_or_of_lt kk.isLt, Nat.shiftLeft_eq,
    BitVec.toNat_append, ← Nat.shiftLeft_add_eq_or_of_lt x.isLt, Nat.shiftLeft_eq]
  omega

theorem wordXYN_eq_wordXKk (op x y n : Nibble) : wordXYN op x y n = wordXKk op x (y ++ n) := by
  apply BitVec.eq_of_toNat_eq
  rw [wordXKk_toNat, wordXYN_toNat, BitVec.toNat_append, ← Nat.shiftLeft_add_eq_or_of_lt n.isLt,
    Nat.shiftLeft_eq]
  omega

theorem wordNnn_and (op op' : Nibble) (nnn nnn' : Addr) :
    wordNnn op nnn &&& wordNnn op' nnn' = wordNnn (op &&& op') (nnn &&& nnn') := by
  simp only [wordNnn_eq_append]; exact BitVec.and_append

theorem wordXKk_and (op x op' x' : Nibble) (kk kk' : Byte) :
    wordXKk op x kk &&& wordXKk op' x' kk' = wordXKk (op &&& op') (x &&& x') (kk &&& kk') := by
  simp only [wordXKk_eq_append]
  exact BitVec.and_append.trans (congrArg (· ++ (kk &&& kk')) BitVec.and_append)

theorem wordXYN_and (op x y n op' x' y' n' : Nibble) :
    wordXYN op x y n &&& wordXYN op' x' y' n' =
      wordXYN (op &&& op') (x &&& x') (y &&& y') (n &&& n') := by
  simp only [wordXYN_eq_wordXKk, wordXKk_and]
  exact congrArg _ BitVec.and_append

theorem nibble_and_ones : ∀ a : Nibble, a &&& 0xF#4 = a := by decide

theorem byte_and_ones (b : Byte) : b &&& 0xFF#8 = b := BitVec.and_allOnes

/-- Under the mask F000 a word of the form op, nnn shows its op. -/
theorem wordNnn_masked (op : Nibble) (nnn : Addr) : wordNnn op nnn &&& 0xF000#16 = wordNnn op 0#12 := by
  rw [show 0xF000#16 = wordNnn 0xF#4 0#12 by decide, wordNnn_and, nibble_and_ones, BitVec.and_zero]

/-- Under the mask F000 a word of the form op, x, kk shows its op. -/
theorem wordXKk_masked (op x : Nibble) (kk : Byte) :
    wordXKk op x kk &&& 0xF000#16 = wordXKk op 0#4 0#8 := by
  rw [show 0xF000#16 = wordXKk 0xF#4 0#4 0#8 by decide, wordXKk_and, nibble_and_ones,
    BitVec.and_zero, BitVec.and_zero]

/-- Under the mask F0FF a word of the form op, x, kk shows its op and kk. -/
theorem wordXKk_masked_kk (op x : Nibble) (kk : Byte) :
    wordXKk op x kk &&& 0xF0FF#16 = wordXKk op 0#4 kk := by
  rw [show 0xF0FF#16 = wordXKk 0xF#4 0#4 0xFF#8 by decide, wordXKk_and, nibble_and_ones,
    BitVec.and_zero, byte_and_ones]

/-- Under the mask F000 a word of the form op, x, y, n shows its op. -/
theorem wordXYN_masked (op x y n : Nibble) : wordXYN op x y n &&& 0xF000#16 = wordXYN op 0#4 0#4 0#4 := by
  rw [show 0xF000#16 = wordXYN 0xF#4 0#4 0#4 0#4 by decide, wordXYN_and, nibble_and_ones,
    BitVec.and_zero, BitVec.and_zero, BitVec.and_zero]

/-- Under the mask F00F a word of the form op, x, y, n shows its op and n. -/
theorem wordXYN_masked_n (op x y n : Nibble) :
    wordXYN op x y n &&& 0xF00F#16 = wordXYN op 0#4 0#4 n := by
  rw [show 0xF00F#16 = wordXYN 0xF#4 0#4 0#4 0xF#4 by decide, wordXYN_and, nibble_and_ones,
    nibble_and_ones, BitVec.and_zero, BitVec.and_zero]

end Sys2Proof
end

