-- ==== Sys2Proof/Laws/Display.lean ====
section
/-! SUPPORT. The framebuffer's cells, and what one toggle does to each (spec/44_display.md R192). -/

namespace Sys2Proof.Machine

@[simp] theorem pixel_mod (g : Grid) (r c : Nat) : pixel g (r % 32) (c % 64) = pixel g r c := by
  simp [pixel]

/-- A cell after one cell is replaced. -/
theorem pixel_setPixel (g : Grid) (r c r' c' : Nat) (b : Bool) :
    pixel (setPixel g r c b) r' c' =
      if r' % 32 = r % 32 ∧ c' % 64 = c % 64 then b else pixel g r' c' := by
  unfold pixel setPixel
  by_cases hr : r % 32 = r' % 32
  · by_cases hc : c % 64 = c' % 64
    · simp [hr, hc]
    · simp [hr, Ne.symm hc, Vector.getElem_set_ne _ _ hc]
  · simp [Ne.symm hr, Vector.getElem_set_ne _ _ hr]

/-- Two framebuffers with the same cells are equal. -/
theorem grid_ext {g h : Grid} (e : ∀ r c, r < 32 → c < 64 → pixel g r c = pixel h r c) : g = h := by
  apply Vector.ext
  intro r hr
  apply Vector.ext
  intro c hc
  have := e r c hr hc
  simpa [pixel, Nat.mod_eq_of_lt hr, Nat.mod_eq_of_lt hc] using this

/-- A cell after one toggle. -/
theorem pixel_togglePixel (r c r' c' : Nat) (d : Canvas) :
    pixel (togglePixel r c d).grid r' c' =
      if r' % 32 = r % 32 ∧ c' % 64 = c % 64 then !pixel d.grid r' c' else pixel d.grid r' c' := by
  rw [togglePixel, pixel_setPixel]
  split
  · next h => rw [← pixel_mod d.grid r c, ← h.1, ← h.2, pixel_mod]
  · rfl

@[simp] theorem togglePixel_hit (r c : Nat) (d : Canvas) :
    (togglePixel r c d).hit = (d.hit || pixel d.grid r c) := rfl

@[simp] theorem pixel_blankGrid (r c : Nat) : pixel blankGrid r c = false := by
  simp [pixel, blankGrid]

end Sys2Proof.Machine
end

