-- ==== Sys2Proof/Laws/Exec.lean ====
section
/-! SUPPORT. The shape every instruction's meaning has: a body handed to `commit`. -/

namespace Sys2Proof.Machine

/-- Every instruction's step is the commit of some body (spec/00_scope.md R11). -/
theorem exec_eq_commit (i : Instr) (s : State) :
    ∃ r : Except FaultKind State, exec i s = commit i s r := by
  cases i <;> (dsimp only [exec]; exact ⟨_, rfl⟩)

/-- A property of every body's result that a fault has too is a property of every next state. -/
theorem exec_next_of_body {P : State → Prop} {i : Instr} {s t : State} {r : Except FaultKind State}
    (e : exec i s = commit i s r) (h : exec i s = .next t) (hok : ∀ u, r = .ok u → P u)
    (hf : ∀ k, P (takeFault k (some (encode i)) s)) : P t := by
  rw [e] at h
  rcases commit_next_iff.mp h with h | ⟨k, -, rfl⟩
  · exact hok t h
  · exact hf k

end Sys2Proof.Machine
end

