-- ==== Sys2Proof/Laws/Frames.lean ====
section
/-! SUPPORT. The frames the statements are said in, for the updates the meanings are made of. -/

namespace Sys2Proof.Machine

/-! ## Readable registers by name -/

@[simp] theorem State.canRead_v (s : State) (x : Nibble) :
    s.canRead (.v x) = (s.regV x).readable s.params := rfl
@[simp] theorem State.canRead_i (s : State) : s.canRead .i = s.I.readable s.params := rfl
@[simp] theorem State.canRead_dt (s : State) : s.canRead .dt = s.DT.readable s.params := rfl
@[simp] theorem State.canRead_st (s : State) : s.canRead .st = s.ST.readable s.params := rfl

/-! ## Frames -/

/-- Memory is the same when the list and the parameters are. -/
theorem sameMemory_of_eq {s t : State} (hm : t.mem = s.mem) (hp : t.params = s.params) :
    SameMemory s t := fun a => State.byteAt_congr hm hp a

/-- One register written, then pc + 2. -/
theorem onlyRegsAndPc_setV_advance (s : State) (x : Nibble) (b : Byte) :
    OnlyRegsAndPc [x] s (s.setV x b).advance := by
  refine ⟨fun r hr => ?_, fun _ => rfl, rfl⟩
  rw [State.regV_advance, State.regV_setV_ne _ _ (by simpa using hr)]

/-- Two registers written, then pc + 2. -/
theorem onlyRegsAndPc_setV_setV_advance (s : State) (x y : Nibble) (b c : Byte) :
    OnlyRegsAndPc [x, y] s ((s.setV x b).setV y c).advance := by
  refine ⟨fun r hr => ?_, fun _ => rfl, rfl⟩
  simp only [List.mem_cons, List.not_mem_nil, or_false, not_or] at hr
  rw [State.regV_advance, State.regV_setV_ne _ _ hr.2, State.regV_setV_ne _ _ hr.1]

/-- A write of pc alone. -/
theorem onlyPc_setPc (s : State) (v : Word) : OnlyPc s (s.setPc v) := ⟨fun _ => rfl, rfl⟩

/-- A skip writes pc alone. -/
theorem onlyPc_skipIf (s : State) (c : Bool) : OnlyPc s (s.skipIf c) := ⟨fun _ => rfl, rfl⟩

/-- Taking a fault is what the statements call faulted by. -/
theorem takeFault_eq_faultedBy (i : Instr) (k : FaultKind) (s : State) :
    takeFault k (some (encode i)) s = faultedBy i k s := rfl

end Sys2Proof.Machine
end

