-- ==== Sys2Proof/Laws/PerInstr.lean ====
section
/-! SUPPORT. Per instruction: the word of a well-formed instruction carries the fixed bits of its row of
spec/opcode_table.json, and its bytes are the two of its word, high byte first. -/

namespace Sys2Proof.Laws.Encoding

/-- What the family says of an instruction: its word matches its row (spec/30_encoding.md R73), and
its bytes put together are its word (R54). -/
def Statement (i : Instr) : Prop :=
  encode i &&& (rowBits i).1 = (rowBits i).2 ∧
    ∃ hi lo, encodeBytes i = [hi, lo] ∧ wordOfBytes hi lo = encode i

/-- The bytes of any instruction put together are its word. -/
theorem bytes (i : Instr) : ∃ hi lo, encodeBytes i = [hi, lo] ∧ wordOfBytes hi lo = encode i :=
  ⟨_, _, rfl, wordOfBytes_bytes _⟩

theorem cls : Statement (.cls) :=
  ⟨rfl, bytes _⟩

theorem ret : Statement (.ret) :=
  ⟨rfl, bytes _⟩

theorem sys (nnn : Addr) : Statement (.sys nnn) :=
  ⟨(wordNnn_masked 0x0#4 nnn).trans rfl, bytes _⟩

theorem jp (nnn : Addr) : Statement (.jp nnn) :=
  ⟨(wordNnn_masked 0x1#4 nnn).trans rfl, bytes _⟩

theorem call (nnn : Addr) : Statement (.call nnn) :=
  ⟨(wordNnn_masked 0x2#4 nnn).trans rfl, bytes _⟩

theorem seVxKk (x : Nibble) (kk : Byte) : Statement (.seVxKk x kk) :=
  ⟨(wordXKk_masked 0x3#4 x kk).trans rfl, bytes _⟩

theorem sneVxKk (x : Nibble) (kk : Byte) : Statement (.sneVxKk x kk) :=
  ⟨(wordXKk_masked 0x4#4 x kk).trans rfl, bytes _⟩

theorem seVxVy (x : Nibble) (y : Nibble) : Statement (.seVxVy x y) :=
  ⟨(wordXYN_masked_n 0x5#4 x y 0x0#4).trans rfl, bytes _⟩

theorem ldVxKk (x : Nibble) (kk : Byte) : Statement (.ldVxKk x kk) :=
  ⟨(wordXKk_masked 0x6#4 x kk).trans rfl, bytes _⟩

theorem addVxKk (x : Nibble) (kk : Byte) : Statement (.addVxKk x kk) :=
  ⟨(wordXKk_masked 0x7#4 x kk).trans rfl, bytes _⟩

theorem ldVxVy (x : Nibble) (y : Nibble) : Statement (.ldVxVy x y) :=
  ⟨(wordXYN_masked_n 0x8#4 x y 0x0#4).trans rfl, bytes _⟩

theorem orVxVy (x : Nibble) (y : Nibble) : Statement (.orVxVy x y) :=
  ⟨(wordXYN_masked_n 0x8#4 x y 0x1#4).trans rfl, bytes _⟩

theorem andVxVy (x : Nibble) (y : Nibble) : Statement (.andVxVy x y) :=
  ⟨(wordXYN_masked_n 0x8#4 x y 0x2#4).trans rfl, bytes _⟩

theorem xorVxVy (x : Nibble) (y : Nibble) : Statement (.xorVxVy x y) :=
  ⟨(wordXYN_masked_n 0x8#4 x y 0x3#4).trans rfl, bytes _⟩

theorem addVxVy (x : Nibble) (y : Nibble) : Statement (.addVxVy x y) :=
  ⟨(wordXYN_masked_n 0x8#4 x y 0x4#4).trans rfl, bytes _⟩

theorem sub (x : Nibble) (y : Nibble) : Statement (.sub x y) :=
  ⟨(wordXYN_masked_n 0x8#4 x y 0x5#4).trans rfl, bytes _⟩

theorem shr (x : Nibble) (y : Nibble) : Statement (.shr x y) :=
  ⟨(wordXYN_masked_n 0x8#4 x y 0x6#4).trans rfl, bytes _⟩

theorem subn (x : Nibble) (y : Nibble) : Statement (.subn x y) :=
  ⟨(wordXYN_masked_n 0x8#4 x y 0x7#4).trans rfl, bytes _⟩

theorem shl (x : Nibble) (y : Nibble) : Statement (.shl x y) :=
  ⟨(wordXYN_masked_n 0x8#4 x y 0xE#4).trans rfl, bytes _⟩

theorem sneVxVy (x : Nibble) (y : Nibble) : Statement (.sneVxVy x y) :=
  ⟨(wordXYN_masked_n 0x9#4 x y 0x0#4).trans rfl, bytes _⟩

theorem ldINnn (nnn : Addr) : Statement (.ldINnn nnn) :=
  ⟨(wordNnn_masked 0xA#4 nnn).trans rfl, bytes _⟩

theorem jpV0 (nnn : Addr) : Statement (.jpV0 nnn) :=
  ⟨(wordNnn_masked 0xB#4 nnn).trans rfl, bytes _⟩

theorem rnd (x : Nibble) (kk : Byte) : Statement (.rnd x kk) :=
  ⟨(wordXKk_masked 0xC#4 x kk).trans rfl, bytes _⟩

theorem drw (x : Nibble) (y : Nibble) (n : Nibble) : Statement (.drw x y n) :=
  ⟨(wordXYN_masked 0xD#4 x y n).trans rfl, bytes _⟩

theorem skp (x : Nibble) : Statement (.skp x) :=
  ⟨(wordXKk_masked_kk 0xE#4 x 0x9E#8).trans rfl, bytes _⟩

theorem sknp (x : Nibble) : Statement (.sknp x) :=
  ⟨(wordXKk_masked_kk 0xE#4 x 0xA1#8).trans rfl, bytes _⟩

theorem ldVxDt (x : Nibble) : Statement (.ldVxDt x) :=
  ⟨(wordXKk_masked_kk 0xF#4 x 0x07#8).trans rfl, bytes _⟩

theorem ldVxK (x : Nibble) : Statement (.ldVxK x) :=
  ⟨(wordXKk_masked_kk 0xF#4 x 0x0A#8).trans rfl, bytes _⟩

theorem ldDtVx (x : Nibble) : Statement (.ldDtVx x) :=
  ⟨(wordXKk_masked_kk 0xF#4 x 0x15#8).trans rfl, bytes _⟩

theorem ldStVx (x : Nibble) : Statement (.ldStVx x) :=
  ⟨(wordXKk_masked_kk 0xF#4 x 0x18#8).trans rfl, bytes _⟩

theorem addIVx (x : Nibble) : Statement (.addIVx x) :=
  ⟨(wordXKk_masked_kk 0xF#4 x 0x1E#8).trans rfl, bytes _⟩

theorem ldFVx (x : Nibble) : Statement (.ldFVx x) :=
  ⟨(wordXKk_masked_kk 0xF#4 x 0x29#8).trans rfl, bytes _⟩

theorem ldBVx (x : Nibble) : Statement (.ldBVx x) :=
  ⟨(wordXKk_masked_kk 0xF#4 x 0x33#8).trans rfl, bytes _⟩

theorem ldMemVx (x : Nibble) : Statement (.ldMemVx x) :=
  ⟨(wordXKk_masked_kk 0xF#4 x 0x55#8).trans rfl, bytes _⟩

theorem ldVxMem (x : Nibble) : Statement (.ldVxMem x) :=
  ⟨(wordXKk_masked_kk 0xF#4 x 0x65#8).trans rfl, bytes _⟩

end Sys2Proof.Laws.Encoding
end

