-- ==== Sys2Proof/Tests/Slice0.lean ====
section
/-! SUPPORT. The model's own tests: the well-formedness smoke, one word of every row decoded as
spec/30_encoding.md R73 writes its pattern, one step per vector of spec/95_test_vectors.md, and for
every statement with hypotheses a state and operands that meet them. -/

namespace Sys2Proof.Tests

open Sys2Proof Sys2Proof.Machine

/-! ## Helpers -/

/-- A state with general registers written. -/
def regs (vs : List (Nibble × Byte)) (s : State) : State :=
  vs.foldl (fun t v => t.setV v.1 v.2) s

/-- A state with bytes of memory from an address on. -/
def bytesAt (a : Nat) (bs : List Byte) (s : State) : State :=
  match writeBytes a bs s with
  | .ok t => t
  | .error _ => s

/-- A state with the next host call a step with these inputs. -/
def calling (ks : List Nibble) (b : Byte) (s : State) : State :=
  { s with calls := [.step (ks.foldl (fun v k => v.set k.toNat true k.isLt) (Vector.replicate 16 false)) b] }

/-- A view of the state a step leaves, none when it leaves none. -/
def view {α : Type} (f : State → α) : StepOutcome → Option α
  | .next t => some (f t)
  | _ => none

/-- One step of the word placed at pc, viewed. -/
def run {α : Type} (w : Nat) (f : State → α) (s : State) : Option α :=
  view f (step (s.withFetchWord 16 w))

/-- The fault kind of a Faulted state. -/
def kindOf (s : State) : Option FaultKind :=
  match s.status with
  | .running => none
  | .faulted r => some r.kind

/-- The byte memory holds at each of some addresses. -/
def peek (as : List Nat) (s : State) : List Byte := as.map s.byteAt

/-- Reset with one parameter other than its default. -/
def unwritten : State := State.resetWith { Params.defaults with resetRegs := .unwrittenFaults }

/-- Reset under wrap12. -/
def wrapping : State := State.resetWith { Params.defaults with pcOverflow := .wrap12 }

/-- Reset with a full stack. -/
def fullStack : State := { State.reset with stack := Vector.replicate 16 0x200#16, sp := 16 }

/-- A Faulted VM: a RET on an empty stack has raised (R233). -/
def faulted : State :=
  { State.reset with status := .faulted { kind := .stackUnderflow, pc := 0x200#16, word := some 0x00EE#16 } }

/-! ## Well-formedness (R76): the words of CLS and RET are no SYS -/

theorem test_wf_sys_cls_refused : ¬ (Instr.sys 0x0E0#12).WellFormed := by decide
theorem test_wf_sys_ret_refused : ¬ (Instr.sys 0x0EE#12).WellFormed := by decide
theorem test_wf_sys_accepted : (Instr.sys 0x0E1#12).WellFormed := by decide
theorem test_wf_drw_accepted : (Instr.drw 0xF#4 0xF#4 0xF#4).WellFormed := by decide

/-! ## Decoding: a word of every row, from the pattern column of R73 -/

theorem test_decode_control :
    decode 0x00E0#16 = .ok .cls ∧ decode 0x00EE#16 = .ok .ret ∧
    decode 0x0FFF#16 = .ok (.sys 0xFFF#12) ∧ decode 0x1ABC#16 = .ok (.jp 0xABC#12) ∧
    decode 0x2DEF#16 = .ok (.call 0xDEF#12) ∧ decode 0xB123#16 = .ok (.jpV0 0x123#12) := by decide

theorem test_decode_skips :
    decode 0x3A42#16 = .ok (.seVxKk 0xA#4 0x42#8) ∧ decode 0x4B43#16 = .ok (.sneVxKk 0xB#4 0x43#8) ∧
    decode 0x5AB0#16 = .ok (.seVxVy 0xA#4 0xB#4) ∧ decode 0x9CD0#16 = .ok (.sneVxVy 0xC#4 0xD#4) ∧
    decode 0xE39E#16 = .ok (.skp 0x3#4) ∧ decode 0xE4A1#16 = .ok (.sknp 0x4#4) := by decide

theorem test_decode_alu :
    decode 0x6A42#16 = .ok (.ldVxKk 0xA#4 0x42#8) ∧ decode 0x7B43#16 = .ok (.addVxKk 0xB#4 0x43#8) ∧
    decode 0x8AB0#16 = .ok (.ldVxVy 0xA#4 0xB#4) ∧ decode 0x8AB1#16 = .ok (.orVxVy 0xA#4 0xB#4) ∧
    decode 0x8AB2#16 = .ok (.andVxVy 0xA#4 0xB#4) ∧ decode 0x8AB3#16 = .ok (.xorVxVy 0xA#4 0xB#4) ∧
    decode 0x8AB4#16 = .ok (.addVxVy 0xA#4 0xB#4) ∧ decode 0x8AB5#16 = .ok (.sub 0xA#4 0xB#4) ∧
    decode 0x8AB6#16 = .ok (.shr 0xA#4 0xB#4) ∧ decode 0x8AB7#16 = .ok (.subn 0xA#4 0xB#4) ∧
    decode 0x8ABE#16 = .ok (.shl 0xA#4 0xB#4) ∧ decode 0xCA0F#16 = .ok (.rnd 0xA#4 0x0F#8) := by decide

theorem test_decode_memory_display_keys :
    decode 0xA300#16 = .ok (.ldINnn 0x300#12) ∧ decode 0xDAB5#16 = .ok (.drw 0xA#4 0xB#4 0x5#4) ∧
    decode 0xF307#16 = .ok (.ldVxDt 0x3#4) ∧ decode 0xF40A#16 = .ok (.ldVxK 0x4#4) ∧
    decode 0xF515#16 = .ok (.ldDtVx 0x5#4) ∧ decode 0xF618#16 = .ok (.ldStVx 0x6#4) ∧
    decode 0xF71E#16 = .ok (.addIVx 0x7#4) ∧ decode 0xF829#16 = .ok (.ldFVx 0x8#4) ∧
    decode 0xF933#16 = .ok (.ldBVx 0x9#4) ∧ decode 0xFA55#16 = .ok (.ldMemVx 0xA#4) ∧
    decode 0xFB65#16 = .ok (.ldVxMem 0xB#4) := by decide

/-- R74: one word of each part of the unknown space. -/
theorem test_decode_unknown :
    decode 0x5001#16 = .error (.unknownOpcode 0x5001#16) ∧
    decode 0x8AB8#16 = .error (.unknownOpcode 0x8AB8#16) ∧
    decode 0x9ABF#16 = .error (.unknownOpcode 0x9ABF#16) ∧
    decode 0xE39F#16 = .error (.unknownOpcode 0xE39F#16) ∧
    decode 0xF375#16 = .error (.unknownOpcode 0xF375#16) ∧
    decodeBytes [0xA3#8] = .error .truncated := by decide

/-- R54: the high byte is stored first. -/
theorem test_encode_bytes :
    encodeBytes (.drw 0x1#4 0x2#4 0x3#4) = [0xD1#8, 0x23#8] ∧
    encode (.sys 0x123#12) = 0x0123#16 ∧ encode (.shl 0xA#4 0xB#4) = 0x8ABE#16 := by decide

/-- The table's own numbering: one 16-bit word. -/
theorem test_decode_table_word :
    decodeTableWord 16 0xA300 = some (.ldINnn 0x300#12) ∧ decodeTableWord 16 0x5001 = none := by decide

/-! ## Control flow (95_test_vectors.md L2.1) -/

/-- DV-C2. -/
theorem test_ret :
    run 0x00EE (fun t => (t.pc, t.sp)) { State.reset with stack := Vector.replicate 16 0x204#16, sp := 1 } =
      some (0x206#16, 0) := by decide

/-- DV-C1. -/
theorem test_ret_empty :
    run 0x00EE (fun t => (kindOf t, t.pc, t.sp)) State.reset = some (some .stackUnderflow, 0x200#16, 0) := by
  decide

/-- DV-C5. -/
theorem test_call :
    run 0x2ABC (fun t => (t.stack[3], t.sp, t.pc)) { State.reset with sp := 3 } =
      some (0x200#16, 4, 0xABC#16) := by decide

/-- DV-C4. -/
theorem test_call_full :
    run 0x2300 (fun t => (kindOf t, t.pc, t.sp)) fullStack = some (some .stackOverflow, 0x200#16, 16) := by
  decide

/-- DV-C8: an odd target. -/
theorem test_jp : run 0x1301 (fun t => t.pc) State.reset = some 0x301#16 := by decide

/-- DV-C10, under both policies. -/
theorem test_jp_v0 :
    run 0xBFFF (fun t => t.pc) (regs [(0x0#4, 0xFF#8)] State.reset) = some 0x10FE#16 ∧
    run 0xBFFF (fun t => t.pc) (regs [(0x0#4, 0xFF#8)] wrapping) = some 0x0FE#16 := by decide

/-- DV-C6, second half: the fetch reads 0xFFF, then fails at 0x1000. -/
theorem test_fetch_at_the_top :
    view kindOf (step (calling [] 0#8 { State.reset with pc := 0xFFF#16 })) = some (some (.outOfRange 0x1000)) := by decide

/-- DV-C10, second half. -/
theorem test_fetch_past_the_top :
    view kindOf (step (calling [] 0#8 { State.reset with pc := 0x10FE#16 })) = some (some (.outOfRange 0x10FE)) := by decide

/-! ## Skips (L2.2) -/

/-- S3, and DV-S8 at the top of memory. -/
theorem test_se_vx_kk :
    run 0x3005 (fun t => t.pc) (regs [(0x0#4, 4#8)] State.reset) = some 0x202#16 ∧
    run 0x3005 (fun t => t.pc) (regs [(0x0#4, 5#8)] { State.reset with pc := 0xFFC#16 }) =
      some 0x1000#16 := by decide

/-- DV-S1, DV-S2. -/
theorem test_sne_vx_kk :
    run 0x4005 (fun t => t.pc) (regs [(0x0#4, 5#8)] State.reset) = some 0x202#16 ∧
    run 0x4005 (fun t => t.pc) (regs [(0x0#4, 6#8)] State.reset) = some 0x204#16 := by decide

/-- DV-S4. -/
theorem test_se_vx_vy :
    run 0x5010 (fun t => t.pc) (regs [(0x0#4, 1#8), (0x1#4, 1#8)] State.reset) = some 0x204#16 := by decide

/-- DV-S7. -/
theorem test_sne_vx_vy :
    run 0x9330 (fun t => t.pc) (regs [(0x3#4, 9#8)] State.reset) = some 0x202#16 := by decide

/-! ## Registers and arithmetic (L2.3) -/

/-- DV-A1. -/
theorem test_ld_vx_kk : run 0x6A42 (fun t => t.getV 0xA#4) State.reset = some 0x42#8 := by decide

/-- DV-A2. -/
theorem test_add_vx_kk :
    run 0x7001 (fun t => (t.getV 0x0#4, t.getV vf)) (regs [(0x0#4, 0xFF#8), (vf, 0x55#8)] State.reset) =
      some (0x00#8, 0x55#8) := by decide

/-- DV-A3. -/
theorem test_ld_vx_vy :
    run 0x8010 (fun t => t.getV 0x0#4) (regs [(0x0#4, 0x01#8), (0x1#4, 0x77#8)] State.reset) =
      some 0x77#8 := by decide

/-- DV-A4, DV-A5, DV-A6. -/
theorem test_or :
    run 0x8011 (fun t => (t.getV 0x0#4, t.getV vf))
      (regs [(0x0#4, 0x0F#8), (0x1#4, 0x3C#8), (vf, 0x55#8)] State.reset) = some (0x3F#8, 0x55#8) := by decide

theorem test_and :
    run 0x8012 (fun t => (t.getV 0x0#4, t.getV vf))
      (regs [(0x0#4, 0x0F#8), (0x1#4, 0x3C#8), (vf, 0x55#8)] State.reset) = some (0x0C#8, 0x55#8) := by decide

theorem test_xor :
    run 0x8013 (fun t => (t.getV 0x0#4, t.getV vf))
      (regs [(0x0#4, 0x0F#8), (0x1#4, 0x3C#8), (vf, 0x55#8)] State.reset) = some (0x33#8, 0x55#8) := by decide

/-- S4. -/
theorem test_add_carry :
    run 0x8014 (fun t => (t.getV 0x0#4, t.getV vf)) (regs [(0x0#4, 250#8), (0x1#4, 10#8)] State.reset) =
      some (4#8, 1#8) := by decide

/-- DV-A11, DV-A12: the flag register as destination, and as the other operand. -/
theorem test_add_on_vf :
    run 0x8F14 (fun t => t.getV vf) (regs [(vf, 200#8), (0x1#4, 100#8)] State.reset) = some 1#8 ∧
    run 0x81F4 (fun t => (t.getV 0x1#4, t.getV vf)) (regs [(0x1#4, 5#8), (vf, 1#8)] State.reset) =
      some (6#8, 0#8) := by decide

/-- S5. -/
theorem test_sub_borrow :
    run 0x8015 (fun t => (t.getV 0x0#4, t.getV vf)) (regs [(0x0#4, 3#8), (0x1#4, 10#8)] State.reset) =
      some (249#8, 0#8) := by decide

/-- DV-A13. -/
theorem test_sub_equal :
    run 0x8015 (fun t => (t.getV 0x0#4, t.getV vf)) (regs [(0x0#4, 5#8), (0x1#4, 5#8)] State.reset) =
      some (0#8, 1#8) := by decide

/-- DV-A17. -/
theorem test_subn :
    run 0x8017 (fun t => (t.getV 0x0#4, t.getV vf)) (regs [(0x0#4, 10#8), (0x1#4, 3#8)] State.reset) =
      some (249#8, 0#8) := by decide

/-- DV-A21. -/
theorem test_shr :
    run 0x8016 (fun t => (t.getV 0x0#4, t.getV vf)) (regs [(0x0#4, 0xFF#8)] State.reset) =
      some (0x7F#8, 1#8) := by decide

/-- DV-A23: SHIFT_SOURCE = Vy. -/
theorem test_shr_vy :
    run 0x8126 (fun t => (t.getV 0x1#4, t.getV vf, t.getV 0x2#4))
      (regs [(0x1#4, 0xF0#8), (0x2#4, 0x05#8)]
        (State.resetWith { Params.defaults with shiftSource := .vy })) =
      some (0x02#8, 1#8, 0x05#8) := by decide

/-- DV-A26, and DV-A27: the flag register as destination. -/
theorem test_shl :
    run 0x801E (fun t => (t.getV 0x0#4, t.getV vf)) (regs [(0x0#4, 0xC1#8)] State.reset) =
      some (0x82#8, 1#8) ∧
    run 0x8F0E (fun t => t.getV vf) (regs [(vf, 0x40#8)] State.reset) = some 0#8 := by decide

/-- DV-A28. -/
theorem test_rnd :
    run 0xC00F (fun t => t.getV 0x0#4) (calling [] 0xA7#8 State.reset) = some 0x07#8 := by decide

/-! ## The address register and memory (L2.4) -/

/-- S12. -/
theorem test_ld_i : run 0xA300 (fun t => (t.I.val, t.pc)) State.reset = some (0x300#12, 0x202#16) := by decide

/-- DV-M5. -/
theorem test_add_i :
    run 0xFF1E (fun t => (t.I.val, t.getV vf)) (regs [(vf, 2#8)] (State.reset.setI 0xFFF#12)) =
      some (0x001#12, 1#8) := by decide

/-- DV-M4. -/
theorem test_add_i_no_flag :
    run 0xF01E (fun t => (t.I.val, t.getV vf)) (regs [(0x0#4, 1#8), (vf, 7#8)]
      ((State.resetWith { Params.defaults with fx1eFlag := .none }).setI 0xFFF#12)) =
      some (0x000#12, 7#8) := by decide

/-- DV-M8, DV-M9. -/
theorem test_font :
    run 0xF029 (fun t => t.I.val) (regs [(0x0#4, 0x1A#8)] State.reset) = some 0x032#12 ∧
    run 0xF029 (fun t => t.I.val) (regs [(0x0#4, 0x0F#8)]
      (State.resetWith { Params.defaults with fontBase := 0x050#12 })) = some 0x09B#12 := by decide

/-- S9, and R58: the last row of the glyph of F. -/
theorem test_bcd :
    run 0xF033 (peek [0x300, 0x301, 0x302, 0x04F]) (regs [(0x0#4, 234#8)] (State.reset.setI 0x300#12)) =
      some [2#8, 3#8, 4#8, 0x80#8] := by decide

/-- DV-M12. -/
theorem test_bcd_past_the_top :
    run 0xF033 (fun t => (kindOf t, peek [0xFFE, 0xFFF] t))
      (regs [(0x0#4, 123#8)] (State.reset.setI 0xFFE#12)) =
      some (some (.outOfRange 0x1000), [0#8, 0#8]) := by decide

/-- DV-M18: the instruction overwrites itself. -/
theorem test_store_over_itself :
    run 0xF155 (fun t => (peek [0x200, 0x201] t, t.pc, t.I.val))
      (regs [(0x0#4, 0x12#8), (0x1#4, 0x00#8)] (State.reset.setI 0x200#12)) =
      some ([0x12#8, 0x00#8], 0x202#16, 0x200#12) := by decide

/-- DV-M17: I advances and wraps under LDST_I_INCREMENT = x_plus_1. -/
theorem test_store_increment :
    run 0xF255 (fun t => (peek [0xFFD, 0xFFE, 0xFFF] t, t.I.val))
      (regs [(0x0#4, 1#8), (0x1#4, 2#8), (0x2#4, 3#8)]
        ((State.resetWith { Params.defaults with ldstIncrement := .xPlusOne }).setI 0xFFD#12)) =
      some ([1#8, 2#8, 3#8], 0x000#12) := by decide

/-- DV-M15. -/
theorem test_load :
    run 0xFF65 (fun t => (t.getV vf, t.getV 0xE#4, t.I.val))
      (bytesAt 0x30F [0x99#8] (State.reset.setI 0x300#12)) = some (0x99#8, 0#8, 0x300#12) := by decide

/-! ## The display (L2.5) -/

/-- S1. -/
theorem test_cls :
    run 0x00E0 (fun t => (pixel t.fb 0 0, pixel t.fb 31 63, t.pc))
      (State.reset.setFb (setPixel (setPixel blankGrid 0 0 true) 31 63 true)) =
      some (false, false, 0x202#16) := by decide

/-- S8: the sprite wraps around the right edge. -/
theorem test_draw_wraps :
    run 0xD011 (fun t => ((List.range 64).filter (pixel t.fb 0), t.getV vf))
      (regs [(0x0#4, 60#8)] (bytesAt 0x300 [0xFF#8] (State.reset.setI 0x300#12))) =
      some ([0, 1, 2, 3, 60, 61, 62, 63], 0#8) := by decide

/-- DV-D5: a collision. -/
theorem test_draw_collides :
    run 0xD011 (fun t => ((List.range 64).filter (pixel t.fb 0), t.getV vf))
      (bytesAt 0x300 [0xF0#8] ((State.reset.setI 0x300#12).setFb (setPixel blankGrid 0 1 true))) =
      some ([0, 2, 3], 1#8) := by decide

/-! ## Keys and timers (L2.6) -/

/-- DV-K2, and DV-K1. -/
theorem test_skp :
    run 0xE09E (fun t => t.pc) (calling [0x0#4] 0#8 (regs [(0x0#4, 0x10#8)]
      (State.resetWith { Params.defaults with keyIndexPolicy := .lowNibble }))) = some 0x204#16 ∧
    run 0xE09E kindOf (regs [(0x0#4, 0x10#8)] State.reset) =
      some (some (.keyIndexOutOfRange 0x10#8)) := by decide

/-- DV-K3, DV-K4. -/
theorem test_sknp :
    run 0xE0A1 (fun t => t.pc) (calling [0x3#4] 0#8 (regs [(0x0#4, 3#8)] State.reset)) = some 0x202#16 ∧
    run 0xE0A1 (fun t => t.pc) (calling [] 0#8 (regs [(0x0#4, 3#8)] State.reset)) = some 0x204#16 := by
  decide

/-- Reset under another key trigger, V1 = 0xEE, the latch holding these keys. -/
def waiting (trig : Fx0aTrigger) (held : Keys) : State :=
  regs [(0x1#4, 0xEE#8)]
    { State.resetWith { Params.defaults with fx0aTrigger := trig } with keyPrev := held }

/-- The key vector with key 5 alone. -/
def key5 : Keys := (Vector.replicate 16 false).set 5 true

/-- DV-K5, and DV-K8 (held) and DV-K10 (release_edge). -/
theorem test_wait_for_key :
    run 0xF10A (fun t => (t.getV 0x1#4, t.pc, keyDown t.keyPrev 0x5#4))
      (calling [0x5#4] 0#8 (regs [(0x1#4, 0xEE#8)] State.reset)) = some (5#8, 0x202#16, true) ∧
    run 0xF10A (fun t => (t.getV 0x1#4, t.pc)) (calling [0x5#4] 0#8 (waiting .held key5)) =
      some (5#8, 0x202#16) ∧
    run 0xF10A (fun t => (t.getV 0x1#4, t.pc, keyDown t.keyPrev 0x5#4))
      (calling [] 0#8 (waiting .releaseEdge key5)) = some (5#8, 0x202#16, false) := by decide

/-- DV-K6, where the key was down already, and DV-K9 (held) and DV-K11 (release_edge). -/
theorem test_wait_holds :
    run 0xF10A (fun t => (t.getV 0x1#4, t.pc))
      (calling [0x5#4] 0#8 (regs [(0x1#4, 0xEE#8)]
        { State.reset with keyPrev := State.reset.keyPrev.set 5 true })) =
      some (0xEE#8, 0x200#16) ∧
    run 0xF10A (fun t => (t.getV 0x1#4, t.pc)) (calling [] 0#8 (waiting .held key5)) =
      some (0xEE#8, 0x200#16) ∧
    run 0xF10A (fun t => (t.getV 0x1#4, t.pc, keyDown t.keyPrev 0x5#4))
      (calling [0x5#4] 0#8 (waiting .releaseEdge (Vector.replicate 16 false))) =
      some (0xEE#8, 0x200#16, true) := by decide

/-- DV-K13. -/
theorem test_ld_vx_dt : run 0xF307 (fun t => t.getV 0x3#4) (State.reset.setDT 0x3C#8) = some 0x3C#8 := by
  decide

/-- DV-K14. -/
theorem test_ld_dt_vx :
    run 0xF015 (fun t => t.DT.val) (regs [(0x0#4, 0x3C#8)] State.reset) = some 0x3C#8 := by decide

/-- DV-K15. -/
theorem test_ld_st_vx :
    run 0xF018 (fun t => (t.ST.val, t.sound, (tick t).ST.val, (tick t).sound))
      (regs [(0x0#4, 1#8)] State.reset) = some (1#8, true, 0#8, false) := by decide

/-! ## Unknown words, the host, reset -/

/-- S10. -/
theorem test_unknown :
    run 0x5001 (fun t => (t.event, t.pc, t.status)) State.reset =
      some (some { pc := 0x200#16, word := 0x5001#16 }, 0x202#16, .running) := by decide

/-- R76. -/
theorem test_sys :
    run 0x0123 (fun t => (t.event, t.pc)) State.reset =
      some (some { pc := 0x200#16, word := 0x0123#16 }, 0x202#16) := by decide

/-- R235: the record of an unwritten read names the register and the word. -/
theorem test_unwritten_read :
    run 0x8124 (fun t => t.status) (regs [(0x1#4, 1#8)] unwritten) =
      some (.faulted { kind := .unwrittenRead (.v 0x2#4), pc := 0x200#16, word := some 0x8124#16 }) := by
  decide

/-- From reset with a word placed and no call queued, the next step runs the word, after a queued tick
too (log 28). -/
theorem test_with_fetch_word_steps :
    view (fun t => (t.pc, t.calls, t.draws)) (step (State.reset.withFetchWord 16 0x1345)) =
      some (0x345#16, [], 1) ∧
    view (fun t => t.pc) (step ({ State.reset with calls := [.tick] }.withFetchWord 16 0x1345)) =
      some 0x345#16 := by decide

/-- R262: an image of one CALL is the first instruction run from reset. -/
theorem test_load_then_step :
    (match loadImage [0x23#8, 0x45#8] State.reset with
      | .ok t => view (fun u => (u.pc, u.sp)) (step (calling [] 0#8 t))
      | .error _ => none) = some (0x345#16, 1) := by decide

/-! ## Witnesses: for each statement with hypotheses, what meets all of them together; where a
statement has several clauses, a witness of each at the edge of its range -/

/-- A register that only an instruction has written can be read under unwritten_faults. -/
def partly : State := (regs [(0x0#4, 7#8), (0x1#4, 9#8)] unwritten).setI 0xFFE#12

/-- A CALL at reset's pc, to a subroutine that is one RET; two step calls to come. -/
def callAndRet : State :=
  { bytesAt 0x300 [0x00#8, 0xEE#8] (bytesAt 0x200 [0x23#8, 0x00#8] State.reset) with
    calls := [.step (Vector.replicate 16 false) 0#8, .step (Vector.replicate 16 true) 0#8] }

/-- An unknown word at reset's pc, and a step call to come. -/
def junk : State := calling [] 0#8 (bytesAt 0x200 [0xFF#8, 0xFF#8] State.reset)

theorem witness_DecodeOfEncodeIsTheInstruction :
    (Instr.drw 0xF#4 0x0#4 0xF#4).WellFormed ∧ (Instr.sys 0xFFF#12).WellFormed := by decide

theorem witness_EncodeOfDecodeIsTheWord : decode 0x8AB7#16 = .ok (.subn 0xA#4 0xB#4) := by decide

theorem witness_MatchingWordDecodesToItsRow :
    (∀ nnn, Instr.skp 0x0#4 ≠ .sys nnn) ∧
    0xEF9E#16 &&& (rowBits (.skp 0x0#4)).1 = (rowBits (.skp 0x0#4)).2 :=
  ⟨by intros; nofun, by decide⟩

theorem witness_UnknownWordsAreTheListedOnes :
    decode 0xFFFF#16 = .error (.unknownOpcode 0xFFFF#16) ∧ (0x0FFF#16).toNat / 0x1000 = 0 ∧
    0x0FFF#16 ≠ 0x00E0#16 ∧ 0x0FFF#16 ≠ 0x00EE#16 := by decide

/-- The four ranges of the address: 0x1000, 0xFFF (both clauses of it) and 0xFFE. -/
theorem witness_MemoryPrimitives :
    memRead 0x1000 State.reset = .error (.outOfRange 0x1000) ∧
    memRead 0xFFF State.reset = .ok 0#8 ∧
    fetch16 0xFFF State.reset = .error (.outOfRange 0x1000) ∧
    fetch16 0xFFE (bytesAt 0xFFE [0x12#8, 0x34#8] State.reset) = .ok 0x1234#16 := by decide

theorem witness_StoredBytesAreFetchedAsCode :
    partly.CanReadI ∧ (∀ r, r ≤ 0x1#4 → partly.CanReadV r) ∧
    partly.I.val.toNat + (0x1#4).toNat ≤ 0xFFF ∧ 0 + 1 ≤ (0x1#4).toNat ∧
    ∃ t, exec (.ldMemVx 0x1#4) partly = .next t :=
  ⟨by decide, by decide, by decide, by decide, _, rfl⟩

theorem witness_StepRunsTheDecodedInstruction :
    callAndRet.status = .running ∧
    callAndRet.calls = .step (Vector.replicate 16 false) 0#8 :: [.step (Vector.replicate 16 true) 0#8] ∧
    fetch16 callAndRet.pc.toNat callAndRet = .ok 0x2300#16 ∧
    decode 0x2300#16 = .ok (.call 0x300#12) := by decide

theorem witness_UnscriptedStepIsAFreeCall : State.reset.calls = [] := by decide

/-- A step that completes, and one that raises. -/
theorem witness_StepLatchesTheKeys :
    (∃ t, step (calling [0x2#4] 0#8 State.reset) = .next t ∧ t.status = .running) ∧
    (∃ t, step (calling [0x2#4] 0#8 (State.reset.withFetchWord 16 0x00EE)) = .next t ∧
      t.status ≠ .running) :=
  ⟨⟨_, rfl, by decide⟩, ⟨_, rfl, by decide⟩⟩

theorem witness_UnknownWordStep :
    junk.status = .running ∧ junk.calls = [.step (Vector.replicate 16 false) 0#8] ∧
    fetch16 junk.pc.toNat junk = .ok 0xFFFF#16 ∧
    decode 0xFFFF#16 = .error (.unknownOpcode 0xFFFF#16) := by decide

/-- The two edges: 0xFFF, where the second byte is out of range, and 0x1000, where the first is. -/
theorem witness_FetchPastTheTopFaults :
    view kindOf (step (calling [] 0#8 { State.reset with pc := 0xFFF#16 })) =
      some (some (.outOfRange 0x1000)) ∧
    view kindOf (step (calling [] 0#8 { State.reset with pc := 0x1000#16 })) =
      some (some (.outOfRange 0x1000)) := by decide

/-- A tick of a nonzero and of a zero timer, of an unwritten one, and of a Faulted VM. -/
theorem witness_TickCountsTheTimersDown :
    view (fun t => (t.DT.val, t.ST.val)) (step { State.reset.setDT 1#8 with calls := [.tick] }) =
      some (0#8, 0#8) ∧
    view (fun t => t.DT.val) (step { unwritten with calls := [.tick] }) = some 0#8 ∧
    view (fun t => t.DT.val) (step { faulted.setDT 5#8 with calls := [.tick] }) = some 5#8 := by decide

theorem witness_FaultedVmHasNoStep :
    faulted.status = .faulted { kind := .stackUnderflow, pc := 0x200#16, word := some 0x00EE#16 } ∧
    faulted.calls = [] ∧ (calling [] 0#8 faulted).calls ≠ [] := by decide

theorem witness_PcWritesFollowThePolicy :
    Params.defaults.pcOverflow = .fault ∧ wrapping.params.pcOverflow = .wrap12 ∧
    pcValue wrapping.params 0x1000#16 = 0#16 := by decide

/-- The edge of FONT_BASE's domain: the font ends at 0x1FF. -/
theorem witness_ResetMeetsTheInvariant :
    Params.defaults.Legal ∧ (Params.mk 0x1B0#12 Params.defaultFont .wrap12 .unwrittenFaults .vy .none
      .xPlusOne .lowNibble .held).Legal := by decide

/-- A state that meets the invariant and whose step raises, and one that a store has changed. -/
theorem witness_StepKeepsTheInvariant :
    (State.reset.withFetchWord 16 0x00EE).Inv ∧
    ∃ t, step (State.reset.withFetchWord 16 0x00EE) = .next t ∧ t.status ≠ .running :=
  ⟨⟨by decide, by decide, by decide, by decide, by decide, fun _ h => nomatch h⟩, _, rfl, by decide⟩

theorem witness_StepKeepsTheParameters : ∃ t, step callAndRet = .next t := ⟨_, rfl⟩

/-- The last font byte and its two neighbours, for a font in the middle of the reserved region. -/
theorem witness_ResetMemoryIsFontAndZero :
    peek [0x04F, 0x050, 0x09F, 0x0A0]
      (State.resetWith { Params.defaults with fontBase := 0x050#12 }) = [0#8, 0xF0#8, 0x80#8, 0#8] := by
  decide

/-- An image that fills memory, and one a byte too long. -/
theorem witness_LoadCopiesTheImage :
    Params.defaults.Legal ∧ (List.replicate 3584 0x12#8).length ≤ 3584 ∧
    (List.replicate 3585 0x12#8).length > 3584 := by
  simp only [List.length_replicate]; decide

/-- Each fault an instruction raises: its state is Running before, and has the record after. -/
theorem witness_FaultKindsByInstruction :
    view kindOf (exec (.ldMemVx 0xF#4) (State.reset.setI 0xFF1#12)) = some (some (.outOfRange 0x1000)) ∧
    view kindOf (exec (.call 0x300#12) fullStack) = some (some .stackOverflow) ∧
    view kindOf (exec .ret State.reset) = some (some .stackUnderflow) ∧
    view kindOf (exec (.skp 0x0#4) (regs [(0x0#4, 16#8)] State.reset)) =
      some (some (.keyIndexOutOfRange 16#8)) ∧
    State.reset.params.keyIndexPolicy = .fault ∧
    view kindOf (exec (.ldVxDt 0x0#4) unwritten) = some (some (.unwrittenRead .dt)) ∧
    firstUnread (.ldVxDt 0x0#4) unwritten = some .dt ∧
    firstUnread (.drw 0x1#4 0x2#4 0x1#4) partly = some (.v 0x2#4) ∧
    firstUnread (.ldMemVx 0xF#4) partly = some (.v 0x2#4) ∧
    State.reset.status = .running ∧ fullStack.status = .running ∧ unwritten.status = .running := by
  decide

/-- Each clause: V[x], V[y], the shift's operand under both sources, V[0], I, I after the registers,
V[x] after I, DT, and the second register of Fx55 with its address at the edge, 0x1000. -/
theorem witness_UnwrittenOperandsFault :
    ¬ unwritten.CanReadV 0x0#4 ∧ (partly.CanReadV 0x1#4 ∧ ¬ partly.CanReadV 0x2#4) ∧
    (unwritten.params.shiftSource = .vx ∧ ¬ unwritten.CanReadV 0x3#4) ∧
    ¬ unwritten.CanReadI ∧
    ((regs [(0x0#4, 7#8), (0x1#4, 9#8)] unwritten).CanReadV 0x0#4 ∧
      (regs [(0x0#4, 7#8), (0x1#4, 9#8)] unwritten).CanReadV 0x1#4 ∧
      ¬ (regs [(0x0#4, 7#8), (0x1#4, 9#8)] unwritten).CanReadI) ∧
    (partly.CanReadI ∧ ¬ partly.CanReadV 0x2#4) ∧ ¬ unwritten.CanReadDT ∧
    (0x2#4 ≤ 0xF#4 ∧ (∀ r, r < 0x2#4 → partly.CanReadV r) ∧
      partly.I.val.toNat + (0x2#4).toNat ≤ 0x1000) := by decide

/-- The shift's operand under SHIFT_SOURCE = Vy: V[y] is unwritten though V[x] is not. -/
theorem witness_UnwrittenOperandsFault_vy :
    ¬ (regs [(0x0#4, 7#8)] (State.resetWith
      { Params.defaults with resetRegs := .unwrittenFaults, shiftSource := .vy })).CanReadV
      (match (ShiftSource.vy) with | .vx => 0x0#4 | .vy => 0x1#4) := by decide

/-- An instruction that names no flag, and Fx1E under FX1E_FLAG = none. -/
theorem witness_FlagRegisterIsKept :
    (∃ t, exec (.ldVxKk 0xE#4 1#8) State.reset = .next t) ∧ 0xE#4 ≠ vf ∧
    (∃ t, exec (.addIVx 0xF#4)
      (State.resetWith { Params.defaults with fx1eFlag := .none }) = .next t) ∧
    (State.resetWith { Params.defaults with fx1eFlag := .none }).params.fx1eFlag = .none :=
  ⟨⟨_, rfl⟩, by decide, ⟨_, rfl⟩, rfl⟩

theorem witness_OnlyStoresChangeMemory :
    (∃ t, exec (.ldVxMem 0x0#4) State.reset = .next t) ∧ (∀ x, Instr.ldVxMem 0x0#4 ≠ .ldBVx x) ∧
    ∀ x, Instr.ldVxMem 0x0#4 ≠ .ldMemVx x :=
  ⟨⟨_, rfl⟩, by intros; nofun, by intros; nofun⟩

theorem witness_OnlyCallAndRetReachTheStack :
    (∃ t, exec (.jp 0x300#12) fullStack = .next t) ∧ (∀ nnn, Instr.jp 0x300#12 ≠ .call nnn) ∧
    Instr.jp 0x300#12 ≠ .ret :=
  ⟨⟨_, rfl⟩, by intros; nofun, by decide⟩

/-- One instruction that writes none of the named registers, and a block transfer without increment. -/
theorem witness_OtherRegistersHaveTheirWriters :
    (∃ t, exec (.jp 0x300#12) State.reset = .next t) ∧
    (∃ t, exec (.ldVxMem 0x0#4) State.reset = .next t) ∧
    State.reset.params.ldstIncrement = .none ∧
    (∀ x, Instr.jp 0x300#12 ≠ .ldDtVx x) ∧ (∀ x, Instr.jp 0x300#12 ≠ .ldStVx x) ∧
    Instr.jp 0x300#12 ≠ .cls ∧ (∀ x y n, Instr.jp 0x300#12 ≠ .drw x y n) ∧
    ∀ nnn, Instr.jp 0x300#12 ≠ .sys nnn :=
  ⟨⟨_, rfl⟩, ⟨_, rfl⟩, rfl, by intros; nofun, by intros; nofun, by decide,
    by intros; nofun, by intros; nofun⟩

/-- Ex9E meets the first clause, Cxkk the second. -/
theorem witness_InputsAreReadByTheirInstructions :
    (∀ x kk, Instr.skp 0x0#4 ≠ .rnd x kk) ∧ (∀ x, Instr.rnd 0x0#4 1#8 ≠ .skp x) ∧
    (∀ x, Instr.rnd 0x0#4 1#8 ≠ .sknp x) ∧ ∀ x, Instr.rnd 0x0#4 1#8 ≠ .ldVxK x :=
  ⟨by intros; nofun, by intros; nofun, by intros; nofun, by intros; nofun⟩

/-- The stack's edges: full, one entry, empty. -/
theorem witness_RetReturnsPastTheCallSite :
    0 < fullStack.sp.val ∧ 0 < ({ fullStack with sp := 1 } : State).sp.val ∧ State.reset.sp.val = 0 := by
  decide

/-- The widest target, 0xFFF + 0xFF, under both policies. -/
theorem witness_JumpsGoToTheirTarget :
    (regs [(0x0#4, 0xFF#8)] unwritten).CanReadV 0x0#4 ∧
    (regs [(0x0#4, 0xFF#8)] unwritten).params.pcOverflow = .fault ∧
    (regs [(0x0#4, 0xFF#8)] wrapping).CanReadV 0x0#4 ∧
    (regs [(0x0#4, 0xFF#8)] wrapping).params.pcOverflow = .wrap12 := by decide

/-- The last free slot, and none. -/
theorem witness_CallPushesItsOwnAddress :
    ({ fullStack with sp := 15 } : State).sp.val < 16 ∧ State.reset.sp.val < 16 ∧
    fullStack.sp.val = 16 := by decide

theorem witness_CallThenReturnComesBack :
    callAndRet.status = .running ∧ callAndRet.calls.length = 2 ∧ callAndRet.sp.val < 16 ∧
    fetch16 callAndRet.pc.toNat callAndRet = .ok (encode (.call 0x300#12)) ∧
    fetch16 (0x300#12).toNat callAndRet = .ok 0x00EE#16 := by decide

theorem witness_ByteSkips : partly.CanReadV 0x0#4 ∧ partly.getV 0x0#4 = 7#8 := by decide

theorem witness_RegisterSkips :
    partly.CanReadV 0x0#4 ∧ partly.CanReadV 0x1#4 ∧ partly.getV 0x0#4 ≠ partly.getV 0x1#4 := by decide

theorem witness_RegisterLoads : partly.CanReadV 0x1#4 := by decide

theorem witness_AddImmediateSetsNoFlag : State.reset.CanReadV 0xF#4 := by decide

theorem witness_LogicWritesOnlyItsRegister :
    State.reset.CanReadV 0xF#4 ∧ State.reset.CanReadV 0x0#4 := by decide

theorem witness_AddReportsTheCarry :
    partly.CanReadV 0x0#4 ∧ partly.CanReadV 0x1#4 ∧ 0x0#4 ≠ vf := by decide

theorem witness_SubtractionsReportNoBorrow :
    partly.CanReadV 0x1#4 ∧ partly.CanReadV 0x0#4 ∧ 0x1#4 ≠ vf := by decide

/-- Both shift sources. -/
theorem witness_ShiftsReportTheBitShiftedOut :
    (State.reset.params.shiftSource = .vx ∧ State.reset.CanReadV 0x1#4 ∧ 0x1#4 ≠ vf) ∧
    ({ Params.defaults with shiftSource := .vy } : Params).shiftSource = .vy ∧
    (State.resetWith { Params.defaults with shiftSource := .vy }).CanReadV 0x2#4 := by decide

/-- A sum that passes 0xFFF and one that does not, and FX1E_FLAG = none. -/
theorem witness_AddToIndex :
    (partly.CanReadI ∧ partly.CanReadV 0x0#4 ∧ partly.params.fx1eFlag = .setClear) ∧
    (State.resetWith { Params.defaults with fx1eFlag := .none }).CanReadI ∧
    (State.resetWith { Params.defaults with fx1eFlag := .none }).CanReadV 0xF#4 ∧
    (State.resetWith { Params.defaults with fx1eFlag := .none }).params.fx1eFlag = .none := by decide

/-- The highest legal FONT_BASE. -/
theorem witness_FontAddressOfADigit :
    (State.resetWith { Params.defaults with fontBase := 0x1B0#12 }).params.Legal ∧
    (State.resetWith { Params.defaults with fontBase := 0x1B0#12 }).CanReadV 0x0#4 := by decide

/-- The two sides of the edge: I = 0xFFD and I = 0xFFE. -/
theorem witness_DecimalDigitsAreStored :
    (partly.CanReadV 0x0#4 ∧ partly.CanReadI ∧ partly.I.val.toNat ≥ 0xFFE) ∧
    (partly.setI 0xFFD#12).CanReadV 0x0#4 ∧ (partly.setI 0xFFD#12).CanReadI ∧
    (partly.setI 0xFFD#12).I.val.toNat < 0xFFE := by decide

/-- The two sides of the edge: I + x = 0xFFF, both increments, and I + x = 0x1000; and a register above
the one whose store reaches 0x1000 that can not be read. -/
theorem witness_RegistersAreStored :
    (partly.CanReadI ∧ (∀ r, r ≤ 0x1#4 → partly.CanReadV r) ∧
      partly.I.val.toNat + (0x1#4).toNat ≤ 0xFFF ∧ partly.params.ldstIncrement = .none) ∧
    ((partly.setI 0xFFF#12).CanReadI ∧ (partly.setI 0xFFF#12).I.val.toNat + (0xF#4).toNat > 0xFFF ∧
      (∀ r, r ≤ 0xF#4 → (partly.setI 0xFFF#12).I.val.toNat + r.toNat ≤ 0x1000 →
        (partly.setI 0xFFF#12).CanReadV r) ∧ ¬ (partly.setI 0xFFF#12).CanReadV 0x2#4) ∧
    (State.resetWith { Params.defaults with ldstIncrement := .xPlusOne }).CanReadI ∧
    (∀ r, r ≤ 0xF#4 →
      (State.resetWith { Params.defaults with ldstIncrement := .xPlusOne }).CanReadV r) := by decide

/-- The same edge. -/
theorem witness_RegistersAreLoaded :
    (partly.CanReadI ∧ partly.I.val.toNat + (0x1#4).toNat ≤ 0xFFF ∧
      partly.params.ldstIncrement = .none) ∧
    partly.I.val.toNat + (0x2#4).toNat > 0xFFF ∧
    (State.resetWith { Params.defaults with ldstIncrement := .xPlusOne }).CanReadI := by decide

/-- No row, the last sprite that fits, and the first that does not. -/
theorem witness_DrawReadsItsSprite :
    (partly.CanReadV 0x0#4 ∧ partly.CanReadV 0x1#4 ∧ partly.CanReadI) ∧
    partly.I.val.toNat + (0x2#4).toNat ≤ 0x1000 ∧
    0x3#4 ≠ 0#4 ∧ partly.I.val.toNat + (0x3#4).toNat > 0x1000 := by decide

/-- The tallest sprite, a cell its last row covers past the bottom edge, and one no row does. -/
theorem witness_DrawTogglesWhatTheSpriteCovers :
    (List.replicate 15 0x80#8).length ≤ 15 ∧ SpriteCovers 31 63 (List.replicate 15 0x80#8) 13 63 ∧
    ¬ SpriteCovers 31 63 [] 0 0 :=
  ⟨by decide, ⟨14, 0, by decide, by decide, by decide, by decide, by decide⟩,
    fun ⟨_, _, h, _⟩ => absurd h (Nat.not_lt_zero _)⟩

/-- Every covered cell off at first, and every covered cell on, of a sprite that covers a cell. -/
theorem witness_DrawingTwiceRestoresTheScreen :
    ([0x80#8] : List Byte).length ≤ 15 ∧ SpriteCovers 0 0 [0x80#8] 0 0 ∧
    (∀ r c, SpriteCovers 0 0 [0x80#8] r c → pixel blankGrid r c = false) ∧
    (∀ r c, SpriteCovers 0 0 [0x80#8] r c →
      pixel (Vector.replicate 32 (Vector.replicate 64 true)) r c = true) :=
  ⟨by decide, ⟨0, 0, by decide, by decide, by decide, by decide, by decide⟩,
    fun _ _ _ => by simp [pixel, blankGrid], fun _ _ _ => by simp [pixel]⟩

/-- The highest key number, the first value past it, and the other policy. -/
theorem witness_KeySkips :
    ((regs [(0x0#4, 15#8)] unwritten).CanReadV 0x0#4 ∧
      ((regs [(0x0#4, 15#8)] unwritten).getV 0x0#4).toNat ≤ 15 ∧
      (0xF#4).toNat = ((regs [(0x0#4, 15#8)] unwritten).getV 0x0#4).toNat % 16) ∧
    ((regs [(0x0#4, 16#8)] State.reset).getV 0x0#4).toNat > 15 ∧
    State.reset.params.keyIndexPolicy = .fault ∧
    (State.resetWith { Params.defaults with keyIndexPolicy := .lowNibble }).params.keyIndexPolicy =
      .lowNibble := by decide

/-- Under each trigger: what an event is, a state with one, and a state with none. -/
theorem witness_WaitForAKey_triggers :
    (∀ k, keyEvent { waiting .held key5 with keys := key5 } k = true ↔ keyDown key5 k = true) ∧
    (∃ k, keyEvent { waiting .held key5 with keys := key5 } k = true) ∧
    (∀ k, ¬ keyEvent (waiting .held key5) k = true) ∧
    (∀ k, keyEvent (waiting .releaseEdge key5) k = true ↔
      keyDown key5 k = true ∧ keyDown (waiting .releaseEdge key5).keys k = false) ∧
    (∃ k, keyEvent (waiting .releaseEdge key5) k = true) ∧
    ∀ k, ¬ keyEvent { waiting .releaseEdge key5 with keys := key5 } k = true :=
  ⟨by decide, ⟨0x5#4, by decide⟩, by decide, by decide, ⟨0x5#4, by decide⟩, by decide⟩

/-- With key F pressed since the last step there is an event; at reset there is none. -/
theorem witness_WaitForAKey :
    (∀ k, keyEvent { State.reset with keys := State.reset.keys.set 15 true } k = true ↔
      keyDown (State.reset.keys.set 15 true) k = true ∧ keyDown State.reset.keyPrev k = false) ∧
    (∃ k, keyEvent { State.reset with keys := State.reset.keys.set 15 true } k = true) ∧
    ∀ k, ¬ keyEvent State.reset k = true :=
  ⟨by decide, ⟨0xF#4, by decide⟩, by decide⟩

theorem witness_TimerInstructions :
    (unwritten.setDT 3#8).CanReadDT ∧ (regs [(0xF#4, 3#8)] unwritten).CanReadV 0xF#4 := by decide

/-- A written and an unwritten ST, each with a tick to come; the written one stands at 1, the edge. -/
theorem witness_SoundFollowsTheSoundTimer :
    (unwritten.setST 1#8).ST.written = true ∧ State.reset.params.resetRegs = .zero ∧
    (unwritten.params.resetRegs = .unwrittenFaults ∧ unwritten.ST.written = false) ∧
    view (fun t => (t.sound, t.draws)) (step { unwritten.setST 1#8 with calls := [.tick] }) =
      some (false, 1) ∧
    view State.sound (step { State.reset.setST 2#8 with calls := [.tick] }) = some true ∧
    view State.sound (step { unwritten with calls := [.tick] }) = some false := by decide

/-- 1200 at 0x200 (DV-C7). -/
theorem witness_SelfJumpStepsForEver :
    (calling [] 0#8 (bytesAt 0x200 [0x12#8, 0x00#8] State.reset)).EndedNormally ∧
    (calling [] 0#8 (bytesAt 0x200 [0x12#8, 0x00#8] State.reset)).calls.length = 1 := by decide

end Sys2Proof.Tests
end

section
/-! SUPPORT. The frame rule (spec/00_scope.md R12) as a table: the parts of the state each instruction
may write, and the theorem that no instruction's step changes a part that its row does not list. -/

namespace Sys2Proof.Machine

/-! ## The parts of the state -/

/-- The parts of the state a frame speaks of: all of it but pc and the status. -/
inductive Part where
  | v (x : Nibble)
  | i
  | stack
  | dt
  | st
  | mem
  | fb
  | event
  /-- What the host alone writes: the parameters, the key latch, the step's inputs and its queue. -/
  | host

/-- The type of a part's contents. -/
def Part.Contents : Part → Type
  | .v _ | .dt | .st => Reg 8
  | .i => Reg 12
  | .stack => Fin 17 × Vector Word 16
  | .mem => Memory
  | .fb => Grid
  | .event => Option UnknownOpcode
  | .host => Params × Keys × Keys × Byte × List HostCall × Nat

/-- What a state holds in a part. -/
def Part.read (s : State) : (q : Part) → q.Contents
  | .v x => s.regV x
  | .i => s.I
  | .stack => (s.sp, s.stack)
  | .dt => s.DT
  | .st => s.ST
  | .mem => s.mem
  | .fb => s.fb
  | .event => s.event
  | .host => (s.params, s.keyPrev, s.keys, s.rnd, s.calls, s.draws)

/-- Every part outside the list is as before. -/
def SameBut (qs : List Part) (s t : State) : Prop := ∀ q, q ∉ qs → q.read t = q.read s

theorem SameBut.refl (qs : List Part) (s : State) : SameBut qs s s := fun _ _ => rfl

theorem SameBut.trans {qs rs : List Part} {s t u : State} (h : SameBut qs s t) (h' : SameBut rs t u) :
    SameBut (qs ++ rs) s u := by
  intro q hq
  rw [List.mem_append, not_or] at hq
  exact (h' q hq.2).trans (h q hq.1)

/-- The parts the host alone writes, one by one. -/
theorem SameBut.host {qs : List Part} {s t : State} (h : SameBut qs s t) (hq : .host ∉ qs) :
    t.params = s.params ∧ t.keyPrev = s.keyPrev ∧ t.keys = s.keys ∧ t.rnd = s.rnd ∧
      t.calls = s.calls ∧ t.draws = s.draws := by
  have e : (t.params, t.keyPrev, t.keys, t.rnd, t.calls, t.draws) =
      (s.params, s.keyPrev, s.keys, s.rnd, s.calls, s.draws) := h .host hq
  simpa only [Prod.mk.injEq] using e

/-! ## What each update leaves -/

/-- A write of pc, an advance or a skip among them, reaches no part. -/
theorem SameBut.setPc {qs : List Part} {s t : State} (h : SameBut qs s t) (v : Word) :
    SameBut qs s (t.setPc v) := by
  intro q hq
  rw [← h q hq]
  cases q <;> rfl

theorem sameBut_takeFault (qs : List Part) (k : FaultKind) (w : Option Word) (s : State) :
    SameBut qs s (takeFault k w s) := by
  intro q _
  cases q <;> rfl

theorem sameBut_setV (s : State) (x : Nibble) (b : Byte) : SameBut [.v x] s (s.setV x b) := by
  intro q hq
  cases q with
  | v r => exact State.regV_setV_ne s b (by simpa using hq)
  | _ => rfl

theorem sameBut_setI (s : State) (a : Addr) : SameBut [.i] s (s.setI a) := by
  intro q hq
  cases q with
  | i => simp at hq
  | _ => rfl

theorem sameBut_setDT (s : State) (b : Byte) : SameBut [.dt] s (s.setDT b) := by
  intro q hq
  cases q with
  | dt => simp at hq
  | _ => rfl

theorem sameBut_setST (s : State) (b : Byte) : SameBut [.st] s (s.setST b) := by
  intro q hq
  cases q with
  | st => simp at hq
  | _ => rfl

theorem sameBut_setFb (s : State) (g : Grid) : SameBut [.fb] s (s.setFb g) := by
  intro q hq
  cases q with
  | fb => simp at hq
  | _ => rfl

theorem sameBut_emitUnknown (s : State) (w : Word) : SameBut [.event] s (s.emitUnknown w) := by
  intro q hq
  cases q with
  | event => simp at hq
  | _ => rfl

/-- A new stack and stack pointer, as a push or a pop leaves them. -/
theorem sameBut_stack (s : State) (n : Fin 17) (st : Vector Word 16) :
    SameBut [.stack] s { s with sp := n, stack := st } := by
  intro q hq
  cases q with
  | stack => simp at hq
  | _ => rfl

theorem sameBut_of_push {v : Word} {s t : State} (h : push v s = .ok t) : SameBut [.stack] s t := by
  unfold push at h
  split at h
  · cases h; exact sameBut_stack s _ _
  · cases h

theorem sameBut_of_pop {s t : State} {r : Word} (h : pop s = .ok (r, t)) : SameBut [.stack] s t := by
  rcases pop_cases s with ⟨-, e⟩ | ⟨_, _, e⟩
  · rw [e] at h; cases h
  · rw [e] at h; cases h; exact sameBut_stack s _ _

theorem StoredAt.sameBut {s t : State} {a n : Nat} (h : StoredAt s t a n) : SameBut [.mem] s t := by
  intro q hq
  rw [h.rest]
  cases q with
  | mem => simp at hq
  | _ => rfl

/-- VF, where Fx1E reports in it. -/
@[simp] def indexFlagParts (p : Params) : List Part := if p.fx1eFlag = .none then [] else [.v vf]

theorem sameBut_indexFlag (s : State) (a : Addr) (v : Byte) :
    SameBut (indexFlagParts s.params) s (s.indexFlag a v) := by
  unfold indexFlagParts State.indexFlag
  cases s.params.fx1eFlag with
  | none => exact SameBut.refl _ s
  | setClear => exact sameBut_setV s vf _

/-- I, where Fx55 and Fx65 advance it. -/
@[simp] def transferParts (p : Params) : List Part := if p.ldstIncrement = .none then [] else [.i]

theorem sameBut_afterTransfer (s : State) (a : Addr) (x : Nibble) :
    SameBut (transferParts s.params) s (s.afterTransfer a x) := by
  unfold transferParts State.afterTransfer
  cases s.params.ldstIncrement with
  | none => exact SameBut.refl _ s
  | xPlusOne => exact sameBut_setI s _

/-- V[0] to V[x], which Fx65 loads. -/
def loadedParts (x : Nibble) : List Part :=
  (List.range (x.toNat + 1)).map fun k => .v (BitVec.ofNat 4 k)

@[simp] theorem mem_loadedParts {q : Part} {x : Nibble} : q ∈ loadedParts x ↔ ∃ r ≤ x, q = .v r := by
  simp only [loadedParts, List.mem_map, List.mem_range, BitVec.le_def]
  constructor
  · rintro ⟨k, hk, rfl⟩
    exact ⟨_, by rw [BitVec.toNat_ofNat]; omega, rfl⟩
  · rintro ⟨r, hr, rfl⟩
    exact ⟨r.toNat, by omega, by simp⟩

theorem sameBut_of_loadRegs {a : Nat} {x : Nibble} {s t : State}
    (h : loadRegs a 0 (x.toNat + 1) s = .ok t) : SameBut (loadedParts x) s t := by
  have hx := x.isLt
  obtain ⟨hrest, hregs, -⟩ := loadRegs_loaded a (x.toNat + 1) (by omega) h
  intro q hq
  cases q with
  | v r =>
    have hr : ¬ r ≤ x := fun hle => hq (mem_loadedParts.mpr ⟨r, hle, rfl⟩)
    rw [BitVec.le_def] at hr
    exact hregs r (by omega)
  | _ => rw [hrest]; rfl

/-! ## The table of writers -/

/-- The parts an instruction may write, under given parameters. -/
def writtenParts (p : Params) : Instr → List Part
  | .cls => [.fb]
  | .ret | .call _ => [.stack]
  | .sys _ => [.event]
  | .jp _ | .jpV0 _ | .seVxKk _ _ | .sneVxKk _ _ | .seVxVy _ _ | .sneVxVy _ _ | .skp _ | .sknp _ => []
  | .ldVxKk x _ | .addVxKk x _ | .ldVxVy x _ | .orVxVy x _ | .andVxVy x _ | .xorVxVy x _ | .rnd x _
  | .ldVxDt x | .ldVxK x => [.v x]
  | .addVxVy x _ | .sub x _ | .shr x _ | .subn x _ | .shl x _ => [.v x, .v vf]
  | .ldINnn _ | .ldFVx _ => [.i]
  | .drw _ _ _ => [.fb, .v vf]
  | .ldDtVx _ => [.dt]
  | .ldStVx _ => [.st]
  | .addIVx _ => .i :: indexFlagParts p
  | .ldBVx _ => [.mem]
  | .ldMemVx _ => .mem :: transferParts p
  | .ldVxMem x => loadedParts x ++ transferParts p

/-- A body's result, if it answers one, is the same outside the listed parts. -/
def WritesOnly (qs : List Part) (s : State) (r : Except FaultKind State) : Prop :=
  ∀ t, r = .ok t → SameBut qs s t

theorem WritesOnly.ok {qs : List Part} {s t : State} (h : SameBut qs s t) : WritesOnly qs s (.ok t) := by
  rintro _ ⟨⟩
  exact h

theorem WritesOnly.bind {α : Type} {qs : List Part} {s : State} {r : Except FaultKind α}
    {f : α → Except FaultKind State} (h : ∀ a, r = .ok a → WritesOnly qs s (f a)) :
    WritesOnly qs s (r >>= f) := by
  intro t ht
  obtain ⟨a, ha, hf⟩ := except_bind_ok_iff.mp ht
  exact h a ha t hf

/-- One register loaded, then pc + 2. -/
theorem writesOnly_setV (s : State) (x : Nibble) (b : Byte) :
    WritesOnly [.v x] s (.ok (s.setV x b).advance) := .ok ((sameBut_setV s x b).setPc _)

/-- A result and its flag, then pc + 2. -/
theorem writesOnly_setV_setV (s : State) (x : Nibble) (b c : Byte) :
    WritesOnly [.v x, .v vf] s (.ok ((s.setV x b).setV vf c).advance) :=
  .ok (((sameBut_setV s x b).trans (sameBut_setV _ vf c)).setPc _)

/-- A write of pc alone. -/
theorem writesOnly_setPc (s : State) (v : Word) : WritesOnly [] s (.ok (s.setPc v)) :=
  .ok ((SameBut.refl [] s).setPc v)

/-- The body of an instruction writes the parts of its row, and it is what `exec` commits. -/
theorem exec_writesOnly (i : Instr) (s : State) :
    ∃ r, exec i s = commit i s r ∧ WritesOnly (writtenParts s.params i) s r := by
  cases i with
  | cls => exact ⟨_, rfl, .ok ((sameBut_setFb s _).setPc _)⟩
  | ret => exact ⟨_, rfl, .bind fun ⟨_, _⟩ h => .ok ((sameBut_of_pop h).setPc _)⟩
  | sys nnn => exact ⟨_, rfl, .ok ((sameBut_emitUnknown s _).setPc _)⟩
  | jp nnn => exact ⟨_, rfl, writesOnly_setPc s _⟩
  | call nnn => exact ⟨_, rfl, .bind fun _ h => .ok ((sameBut_of_push h).setPc _)⟩
  | seVxKk x kk | sneVxKk x kk => exact ⟨_, rfl, .bind fun _ _ => writesOnly_setPc s _⟩
  | seVxVy x y | sneVxVy x y => exact ⟨_, rfl, .bind fun _ _ => writesOnly_setPc s _⟩
  | skp x | sknp x => exact ⟨_, rfl, .bind fun _ _ => .bind fun _ _ => writesOnly_setPc s _⟩
  | jpV0 nnn => exact ⟨_, rfl, .bind fun _ _ => writesOnly_setPc s _⟩
  | ldVxKk x kk | rnd x kk => exact ⟨_, rfl, writesOnly_setV s x _⟩
  | addVxKk x kk => exact ⟨_, rfl, .bind fun _ _ => writesOnly_setV s x _⟩
  | ldVxVy x y | orVxVy x y | andVxVy x y | xorVxVy x y =>
    exact ⟨_, rfl, .bind fun _ _ => writesOnly_setV s x _⟩
  | ldVxDt x => exact ⟨_, rfl, .bind fun _ _ => writesOnly_setV s x _⟩
  | ldVxK x =>
    refine ⟨_, rfl, ?_⟩
    split
    · exact writesOnly_setV s x _
    · exact .ok (SameBut.refl _ s)
  | addVxVy x y | sub x y | shr x y | subn x y | shl x y =>
    exact ⟨_, rfl, .bind fun _ _ => writesOnly_setV_setV s x _ _⟩
  | drw x y n =>
    exact ⟨_, rfl, .bind fun _ _ => .bind fun _ _ => .bind fun _ _ =>
      .ok (((sameBut_setFb s _).trans (sameBut_setV _ vf _)).setPc _)⟩
  | ldINnn nnn => exact ⟨_, rfl, .ok ((sameBut_setI s _).setPc _)⟩
  | ldFVx x => exact ⟨_, rfl, .bind fun _ _ => .ok ((sameBut_setI s _).setPc _)⟩
  | ldDtVx x => exact ⟨_, rfl, .bind fun _ _ => .ok ((sameBut_setDT s _).setPc _)⟩
  | ldStVx x => exact ⟨_, rfl, .bind fun _ _ => .ok ((sameBut_setST s _).setPc _)⟩
  | addIVx x =>
    exact ⟨_, rfl, .bind fun a _ => .bind fun v _ =>
      .ok (((sameBut_setI s _).trans (sameBut_indexFlag _ a v)).setPc _)⟩
  | ldBVx x =>
    exact ⟨_, rfl, .bind fun _ _ => .bind fun _ _ => .bind fun _ h =>
      .ok ((writeBytes_storedAt _ h).sameBut.setPc _)⟩
  | ldMemVx x =>
    refine ⟨_, rfl, .bind fun a _ => .bind fun t h => .ok (SameBut.setPc ?_ _)⟩
    have hs := (storeRegs_storedAt _ _ h).sameBut
    have hp : t.params = s.params := (hs.host (by simp)).1
    exact hs.trans (hp ▸ sameBut_afterTransfer t a x)
  | ldVxMem x =>
    refine ⟨_, rfl, .bind fun a _ => .bind fun t h => .ok (SameBut.setPc ?_ _)⟩
    have hs := sameBut_of_loadRegs h
    have hp : t.params = s.params := (hs.host (by simp)).1
    exact hs.trans (hp ▸ sameBut_afterTransfer t a x)

/-- R12: no instruction's step changes a part that its row of the table does not list, whether it
commits or raises. -/
theorem exec_sameBut {i : Instr} {s t : State} (h : exec i s = .next t) :
    SameBut (writtenParts s.params i) s t := by
  obtain ⟨r, e, hr⟩ := exec_writesOnly i s
  exact exec_next_of_body e h hr fun _ => sameBut_takeFault _ _ _ _

/-! ## Who writes a part -/

@[simp] theorem host_notMem_writtenParts (p : Params) (i : Instr) : .host ∉ writtenParts p i := by
  cases i <;> simp [writtenParts]

@[simp] theorem mem_mem_writtenParts {p : Params} {i : Instr} :
    .mem ∈ writtenParts p i ↔ (∃ x, i = .ldBVx x) ∨ ∃ x, i = .ldMemVx x := by
  cases i <;> simp [writtenParts]

@[simp] theorem stack_mem_writtenParts {p : Params} {i : Instr} :
    .stack ∈ writtenParts p i ↔ (∃ nnn, i = .call nnn) ∨ i = .ret := by
  cases i <;> simp [writtenParts]

@[simp] theorem dt_mem_writtenParts {p : Params} {i : Instr} :
    .dt ∈ writtenParts p i ↔ ∃ x, i = .ldDtVx x := by
  cases i <;> simp [writtenParts]

@[simp] theorem st_mem_writtenParts {p : Params} {i : Instr} :
    .st ∈ writtenParts p i ↔ ∃ x, i = .ldStVx x := by
  cases i <;> simp [writtenParts]

@[simp] theorem fb_mem_writtenParts {p : Params} {i : Instr} :
    .fb ∈ writtenParts p i ↔ i = .cls ∨ ∃ x y n, i = .drw x y n := by
  cases i <;> simp [writtenParts]

@[simp] theorem event_mem_writtenParts {p : Params} {i : Instr} :
    .event ∈ writtenParts p i ↔ ∃ nnn, i = .sys nnn := by
  cases i <;> simp [writtenParts]

theorem exec_params {i : Instr} {s t : State} (h : exec i s = .next t) : t.params = s.params :=
  ((exec_sameBut h).host (by simp)).1

/-! ## The parameters over a host call -/

@[simp] theorem latchKeys_params (t : State) : (latchKeys t).params = t.params := by
  unfold latchKeys
  split <;> rfl

@[simp] theorem tick_params (s : State) : (tick s).params = s.params := by
  unfold tick
  split <;> rfl

theorem fetchAndRun_exec_params {s t : State} (h : fetchAndRun exec s = .next t) :
    t.params = s.params := by
  rcases fetchAndRun_cases exec s with ⟨k, -, e⟩ | ⟨w, i, -, -, e⟩ | ⟨w, e', -, -, e⟩ <;> rw [e] at h
  · cases h; rfl
  · exact exec_params h
  · cases h; rfl

theorem coreStep_exec_params {keys : Keys} {rnd : Byte} {s t : State}
    (h : coreStep exec keys rnd s = .next t) : t.params = s.params := by
  cases hs : s.status with
  | faulted r => rw [coreStep_faulted keys rnd hs] at h; cases h
  | running =>
    rw [coreStep_running keys rnd hs] at h
    cases hf : fetchAndRun exec (supply keys rnd s) with
    | next u =>
      rw [hf, endStep_next] at h
      cases h
      rw [latchKeys_params, fetchAndRun_exec_params hf]
      rfl
    | fault r => rw [hf] at h; cases h
    | refused r => rw [hf] at h; cases h

end Sys2Proof.Machine
end

section
/-! The statements of the family 00_scope.md: the frame rule R12 and the constant parameters of R7. -/

namespace Sys2Proof.Machine

/-- Settles O19, by what a host call is: a tick, or a step call that fetches, runs and latches. -/
theorem stepKeepsTheParameters : Obligations.StepKeepsTheParameters := by
  intro s t h
  obtain ⟨rest, hstep | ⟨keys, rnd, hstep⟩⟩ := step_cases s <;> rw [hstep] at h
  · cases h
    rw [tick_params]
  · rw [coreStep_exec_params h]

/-- Settles O27: VF is in an instruction's row of the table only when it reports in it or has it as
destination; Fx65 reaches it only with x = F. -/
theorem flagRegisterIsKept : Obligations.FlagRegisterIsKept := by
  intro i s t h hi
  refine exec_sameBut h (.v vf) ?_
  cases i with
  | ldVxMem x =>
    have hx : ¬ vf ≤ x := fun hle => hi (by bv_omega)
    simp [writtenParts, hx]
  | _ => simp_all [writtenParts, eq_comm (a := vf)]

/-- Settles O28. -/
theorem onlyStoresChangeMemory : Obligations.OnlyStoresChangeMemory := by
  intro i s t h hb hm
  have hmem : t.mem = s.mem := exec_sameBut h .mem (by simp [hb, hm])
  exact ⟨sameMemory_of_eq hmem (exec_params h), hmem⟩

/-- Settles O29. -/
theorem onlyCallAndRetReachTheStack : Obligations.OnlyCallAndRetReachTheStack := by
  intro i s t h hc hr
  have hstack : (t.sp, t.stack) = (s.sp, s.stack) :=
    exec_sameBut h .stack (by simp [hc, hr])
  simpa only [Prod.mk.injEq] using hstack

/-- Settles O30: each register is as before when the instruction is not among its writers. -/
theorem otherRegistersHaveTheirWriters : Obligations.OtherRegistersHaveTheirWriters := by
  intro i s t h
  have hs := exec_sameBut h
  obtain ⟨hparams, hlatch, hkeys, hrnd, hcalls, hdraws⟩ := hs.host (by simp)
  refine ⟨fun hi => hs .i ?_, fun hd => hs .dt (by simp [hd]),
    fun hd => hs .st (by simp [hd]),
    fun hc hd => hs .fb (by simp [hc, hd]),
    hlatch, hparams, hkeys, hrnd, hcalls, hdraws,
    fun he => hs .event (by simp [he])⟩
  cases i <;> simp_all [writtenParts]

end Sys2Proof.Machine
end

section
/-! SUPPORT. The word an instruction was decoded from is its encoding (spec/30_encoding.md R70, R73):
what a fault record's word is compared with (R236). -/

namespace Sys2Proof

/-! ## Encoding undoes decoding, group by group -/

theorem encode_decode0 {w : Word} (h : (opOf w).toNat = 0x0) : encode (decode0 w) = w := by
  unfold decode0
  split
  · next hw => exact hw.symm
  · split
    · next hw => exact hw.symm
    · exact wordNnn_of_fields (op := 0x0#4) w h

/-- A word is put together from its op, x, y and n. -/
theorem wordXYN_of_nibbles {op n : Nibble} {w : Word} (h : (opOf w).toNat = op.toNat)
    (hn : (nOf w).toNat = n.toNat) : wordXYN op (xOf w) (yOf w) n = w := by
  rw [← BitVec.eq_of_toNat_eq hn]
  exact wordXYN_of_fields w h

/-- A word is put together from its op, x and kk. -/
theorem wordXKk_of_byte {op : Nibble} {kk : Byte} {w : Word} (h : (opOf w).toNat = op.toNat)
    (hk : (kkOf w).toNat = kk.toNat) : wordXKk op (xOf w) kk = w := by
  rw [← BitVec.eq_of_toNat_eq hk]
  exact wordXKk_of_fields w h

theorem encode_of_decode8 {w : Word} {i : Instr} (h : (opOf w).toNat = 0x8) (hd : decode8 w = .ok i) :
    encode i = w := by
  unfold decode8 at hd
  split at hd <;> cases hd <;> exact wordXYN_of_nibbles (op := 0x8#4) h ‹_›

theorem encode_of_decodeE {w : Word} {i : Instr} (h : (opOf w).toNat = 0xE) (hd : decodeE w = .ok i) :
    encode i = w := by
  unfold decodeE at hd
  split at hd <;> cases hd <;> exact wordXKk_of_byte (op := 0xE#4) h ‹_›

theorem encode_of_decodeF {w : Word} {i : Instr} (h : (opOf w).toNat = 0xF) (hd : decodeF w = .ok i) :
    encode i = w := by
  unfold decodeF at hd
  split at hd <;> cases hd <;> exact wordXKk_of_byte (op := 0xF#4) h ‹_›

/-- R73: an instruction the decoder reads encodes to the word it was read from. -/
theorem encode_of_decode {w : Word} {i : Instr} (hd : decode w = .ok i) : encode i = w := by
  unfold decode at hd
  split at hd
  case h_1 h => cases hd; exact encode_decode0 h
  case h_2 h => cases hd; exact wordNnn_of_fields (op := 0x1#4) w h
  case h_3 h => cases hd; exact wordNnn_of_fields (op := 0x2#4) w h
  case h_4 h => cases hd; exact wordXKk_of_fields (op := 0x3#4) w h
  case h_5 h => cases hd; exact wordXKk_of_fields (op := 0x4#4) w h
  case h_6 h =>
    split at hd
    · next hn => cases hd; exact wordXYN_of_nibbles (op := 0x5#4) h (congrArg _ hn)
    · cases hd
  case h_7 h => cases hd; exact wordXKk_of_fields (op := 0x6#4) w h
  case h_8 h => cases hd; exact wordXKk_of_fields (op := 0x7#4) w h
  case h_9 h => exact encode_of_decode8 h hd
  case h_10 h =>
    split at hd
    · next hn => cases hd; exact wordXYN_of_nibbles (op := 0x9#4) h (congrArg _ hn)
    · cases hd
  case h_11 h => cases hd; exact wordNnn_of_fields (op := 0xA#4) w h
  case h_12 h => cases hd; exact wordNnn_of_fields (op := 0xB#4) w h
  case h_13 h => cases hd; exact wordXKk_of_fields (op := 0xC#4) w h
  case h_14 h => cases hd; exact wordXYN_of_fields (op := 0xD#4) w h
  case h_15 h => exact encode_of_decodeE h hd
  case h_16 =>
    refine encode_of_decodeF ?_ hd
    have := (opOf w).isLt
    simp only [imp_false] at *
    omega

end Sys2Proof
end

section
/-! SUPPORT. The invariant along a host call: what an instruction's meaning keeps of it between the fetch
and the write of pc, what a fault keeps, what the host's side of a call keeps. -/

namespace Sys2Proof.Machine

/-! ## A state in the middle of an instruction -/

/-- What a state meets while an instruction runs in it: the invariant, the Running status, and the pc of
the instruction, which the fetch has read from. -/
structure State.Executing (s : State) : Prop extends State.Inv s where
  running : s.status = .running
  fetched : s.pc.toNat ≤ 0xFFE

/-- A Running state has no fault record to be precise about. -/
theorem State.precise_of_running {s : State} {P : FaultRecord → Prop} (h : s.status = .running) :
    ∀ r, s.status = .faulted r → P r := by
  intro r hr
  rw [h] at hr
  cases hr

/-- Registers V are written with their mark. -/
theorem State.Executing.ofV {s t : State} (h : s.Executing) (ht : t = { s with V := t.V })
    (hV : ∀ x, t.regV x = s.regV x ∨ (t.regV x).written = true) : t.Executing := by
  obtain ⟨hregs, hrest⟩ := h.unwritten
  have hunwritten : ∀ x, (t.regV x).written = false → t.getV x = 0x00#8 := by
    intro x hx
    rcases hV x with e | e
    · rw [State.getV, e]
      exact hregs x (e ▸ hx)
    · rw [e] at hx; cases hx
  rw [ht] at hunwritten ⊢
  exact { h with unwritten := ⟨hunwritten, hrest⟩ }

theorem State.Executing.setV {s : State} (h : s.Executing) (x : Nibble) (b : Byte) :
    (s.setV x b).Executing := by
  refine h.ofV rfl fun y => ?_
  rw [State.regV_setV]
  split
  · exact .inr rfl
  · exact .inl rfl

theorem State.Executing.setI {s : State} (h : s.Executing) (a : Addr) : (s.setI a).Executing :=
  have ⟨hV, _, hDT, hST⟩ := h.unwritten
  { h with unwritten := ⟨hV, nofun, hDT, hST⟩ }

theorem State.Executing.setDT {s : State} (h : s.Executing) (b : Byte) : (s.setDT b).Executing :=
  have ⟨hV, hI, _, hST⟩ := h.unwritten
  { h with unwritten := ⟨hV, hI, nofun, hST⟩ }

theorem State.Executing.setST {s : State} (h : s.Executing) (b : Byte) : (s.setST b).Executing :=
  have ⟨hV, hI, hDT, _⟩ := h.unwritten
  { h with unwritten := ⟨hV, hI, hDT, nofun⟩ }

theorem State.Executing.setFb {s : State} (h : s.Executing) (g : Grid) : (s.setFb g).Executing :=
  { h with }

theorem State.Executing.emitUnknown {s : State} (h : s.Executing) (w : Word) :
    (s.emitUnknown w).Executing := { h with }

theorem State.Executing.indexFlag {s : State} (h : s.Executing) (a : Addr) (v : Byte) :
    (s.indexFlag a v).Executing := by
  unfold State.indexFlag
  split
  · exact h.setV vf _
  · exact h

theorem State.Executing.afterTransfer {s : State} (h : s.Executing) (a : Addr) (x : Nibble) :
    (s.afterTransfer a x).Executing := by
  unfold State.afterTransfer
  split
  · exact h
  · exact h.setI _

/-- Stores inside memory keep its canonical form. -/
theorem State.Executing.storedAt {s t : State} (h : s.Executing) {a n : Nat} (ht : StoredAt s t a n) :
    t.Executing := by
  have hmemory := ht.wf h.memory
  rw [ht.rest] at hmemory ⊢
  exact { h with memory := hmemory, precise := State.precise_of_running h.running }

theorem State.Executing.loadRegs {s t : State} (h : s.Executing) {a : Nat} {x : Nibble}
    (ht : loadRegs a 0 (x.toNat + 1) s = .ok t) : t.Executing := by
  have := x.isLt
  obtain ⟨hrest, -, hregs⟩ := loadRegs_loaded a (x.toNat + 1) (by omega) ht
  exact h.ofV hrest hregs

/-- The pushed address is the instruction's own, which the fetch has read from. -/
theorem State.Executing.push {s t : State} (h : s.Executing) (ht : push s.pc s = .ok t) :
    t.Executing := by
  unfold Machine.push at ht
  split at ht
  · next hsp =>
    cases ht
    refine { h with slots := fun j hj => ?_ }
    rw [Vector.getElem_set]
    split
    · exact h.fetched
    · exact h.slots j hj
  · cases ht

/-- A popped address is at most 0xFFE, as every slot is. -/
theorem State.Executing.pop {s t : State} {r : Word} (h : s.Executing) (ht : pop s = .ok (r, t)) :
    r.toNat ≤ 0xFFE ∧ t.Executing := by
  rcases pop_cases s with ⟨-, e⟩ | ⟨_, hj, e⟩ <;> rw [e] at ht <;> cases ht
  exact ⟨h.slots _ hj, { h with }⟩

/-! ## The end of an instruction -/

theorem pcValue_le (p : Params) (v : Word) : (pcValue p v).toNat ≤ v.toNat := by
  unfold pcValue
  split
  · exact Nat.le_refl _
  · rw [BitVec.toNat_umod]
    exact Nat.mod_le _ _

theorem State.Executing.setPc {s : State} (h : s.Executing) {v : Word} (hv : v.toNat ≤ 0x10FE) :
    (s.setPc v).Inv :=
  { h with
    pc := (pcValue_le _ _).trans hv
    precise := State.precise_of_running h.running }

theorem State.Executing.advance {s : State} (h : s.Executing) : s.advance.Inv := by
  have := h.fetched
  exact h.setPc (by bv_omega)

theorem State.Executing.skipIf {s : State} (h : s.Executing) (c : Bool) : (s.skipIf c).Inv := by
  have := h.fetched
  refine h.setPc ?_
  split <;> bv_omega

theorem targetOf_le (nnn : Addr) : (targetOf nnn).toNat ≤ 0xFFF := by
  unfold targetOf
  bv_omega

theorem offsetTarget_le (nnn : Addr) (v : Byte) : (offsetTarget nnn v).toNat ≤ 0x10FE := by
  unfold offsetTarget
  bv_omega

/-- A body's result, if it answers one, meets the invariant. -/
def AnswersInv (r : Except FaultKind State) : Prop := ∀ t, r = .ok t → t.Inv

theorem AnswersInv.ok {t : State} (h : t.Inv) : AnswersInv (.ok t) := by
  rintro _ ⟨⟩
  exact h

theorem AnswersInv.bind {α : Type} {r : Except FaultKind α} {f : α → Except FaultKind State}
    (h : ∀ a, r = .ok a → AnswersInv (f a)) : AnswersInv (r >>= f) := by
  intro t ht
  obtain ⟨a, ha, hf⟩ := except_bind_ok_iff.mp ht
  exact h a ha t hf

/-- Every instruction that commits keeps the invariant. -/
theorem exec_answersInv (i : Instr) {s : State} (h : s.Executing) :
    ∃ r, exec i s = commit i s r ∧ AnswersInv r := by
  cases i with
  | cls => exact ⟨_, rfl, .ok (h.setFb _).advance⟩
  | ret =>
    refine ⟨_, rfl, .bind fun ⟨r, t⟩ ht => .ok ?_⟩
    obtain ⟨hr, hexec⟩ := h.pop ht
    exact hexec.setPc (by bv_omega)
  | sys nnn => exact ⟨_, rfl, .ok (h.emitUnknown _).advance⟩
  | jp nnn => exact ⟨_, rfl, .ok (h.setPc ((targetOf_le nnn).trans (by decide)))⟩
  | call nnn =>
    exact ⟨_, rfl, .bind fun _ ht => .ok ((h.push ht).setPc ((targetOf_le nnn).trans (by decide)))⟩
  | jpV0 nnn => exact ⟨_, rfl, .bind fun v _ => .ok (h.setPc (offsetTarget_le nnn v))⟩
  | seVxKk x kk | sneVxKk x kk => exact ⟨_, rfl, .bind fun _ _ => .ok (h.skipIf _)⟩
  | seVxVy x y | sneVxVy x y => exact ⟨_, rfl, .bind fun _ _ => .ok (h.skipIf _)⟩
  | skp x | sknp x => exact ⟨_, rfl, .bind fun _ _ => .bind fun _ _ => .ok (h.skipIf _)⟩
  | ldVxKk x kk | rnd x kk => exact ⟨_, rfl, .ok (h.setV x _).advance⟩
  | addVxKk x kk => exact ⟨_, rfl, .bind fun _ _ => .ok (h.setV x _).advance⟩
  | ldVxVy x y | orVxVy x y | andVxVy x y | xorVxVy x y =>
    exact ⟨_, rfl, .bind fun _ _ => .ok (h.setV x _).advance⟩
  | ldVxDt x => exact ⟨_, rfl, .bind fun _ _ => .ok (h.setV x _).advance⟩
  | ldVxK x =>
    refine ⟨_, rfl, ?_⟩
    split
    · exact .ok (h.setV x _).advance
    · exact .ok h.toInv
  | addVxVy x y | sub x y | shr x y | subn x y | shl x y =>
    exact ⟨_, rfl, .bind fun _ _ => .ok ((h.setV x _).setV vf _).advance⟩
  | drw x y n =>
    exact ⟨_, rfl, .bind fun _ _ => .bind fun _ _ => .bind fun _ _ =>
      .ok ((h.setFb _).setV vf _).advance⟩
  | ldINnn nnn => exact ⟨_, rfl, .ok (h.setI _).advance⟩
  | ldFVx x => exact ⟨_, rfl, .bind fun _ _ => .ok (h.setI _).advance⟩
  | ldDtVx x => exact ⟨_, rfl, .bind fun _ _ => .ok (h.setDT _).advance⟩
  | ldStVx x => exact ⟨_, rfl, .bind fun _ _ => .ok (h.setST _).advance⟩
  | addIVx x =>
    exact ⟨_, rfl, .bind fun a _ => .bind fun v _ => .ok ((h.setI _).indexFlag a v).advance⟩
  | ldBVx x =>
    exact ⟨_, rfl, .bind fun _ _ => .bind fun _ _ => .bind fun _ ht =>
      .ok (h.storedAt (writeBytes_storedAt _ ht)).advance⟩
  | ldMemVx x =>
    exact ⟨_, rfl, .bind fun a _ => .bind fun _ ht =>
      .ok ((h.storedAt (storeRegs_storedAt _ _ ht)).afterTransfer a x).advance⟩
  | ldVxMem x =>
    exact ⟨_, rfl, .bind fun a _ => .bind fun _ ht =>
      .ok ((h.loadRegs ht).afterTransfer a x).advance⟩

/-! ## Faults -/

/-- A record with the word the fetch gave is precise. -/
theorem State.Inv.takeFault_fetched {s : State} (h : s.Inv) (k : FaultKind) {w : Word}
    (hf : fetch16 s.pc.toNat s = .ok w) : (takeFault k (some w) s).Inv :=
  { h with precise := by rintro _ ⟨⟩; exact ⟨rfl, hf⟩ }

/-- A record of the fetch's own fault is precise. -/
theorem State.Inv.takeFault_unfetched {s : State} (h : s.Inv) {k : FaultKind}
    (hf : fetch16 s.pc.toNat s = .error k) : (takeFault k none s).Inv :=
  { h with precise := by rintro _ ⟨⟩; exact ⟨rfl, hf⟩ }

/-! ## The host's side of a call -/

/-- The invariant says nothing of the host's fields. -/
theorem State.Inv.withHost {s : State} (h : s.Inv) (latch keys : Keys) (rnd : Byte)
    (calls : List HostCall) (draws : Nat) (event : Option UnknownOpcode) :
    ({ s with keyPrev := latch, keys := keys, rnd := rnd, calls := calls, draws := draws,
              event := event } : State).Inv :=
  { h with }

theorem State.Inv.latchKeys {s : State} (h : s.Inv) : (latchKeys s).Inv := by
  unfold Machine.latchKeys
  split
  · exact h.withHost _ _ _ _ _ _
  · exact h

/-- An unwritten timer at its reset value stays there. -/
theorem tickTimer_unwritten {p : Params} {r : Reg 8} (h : r.written = false → r.val = 0x00#8) :
    (tickTimer p r).written = false → (tickTimer p r).val = 0x00#8 := by
  rcases tickTimer_cases p r with e | ⟨-, hval, e⟩ <;> rw [e]
  · exact h
  · exact fun hw => absurd (h hw) hval

theorem State.Inv.tick {s : State} (h : s.Inv) : (tick s).Inv := by
  cases hs : s.status with
  | faulted r => rwa [tick_faulted hs]
  | running =>
    obtain ⟨hV, hI, hDT, hST⟩ := h.unwritten
    rw [tick_running hs]
    exact { h with unwritten := ⟨hV, hI, tickTimer_unwritten hDT, tickTimer_unwritten hST⟩ }

/-! ## Fetch and run, and the step call -/

theorem fetchAndRun_keeps_inv {s t : State} (h : s.Inv) (hs : s.status = .running)
    (ht : fetchAndRun exec s = .next t) : t.Inv := by
  rcases fetchAndRun_cases exec s with ⟨k, hf, e⟩ | ⟨w, i, hf, hd, e⟩ | ⟨w, _, hf, -, e⟩ <;>
    rw [e] at ht
  · cases ht
    exact h.takeFault_unfetched hf
  · have hexec : s.Executing := { h with running := hs, fetched := (fetch16_ok_iff.mp hf).1 }
    obtain ⟨r, hr, hinv⟩ := exec_answersInv i hexec
    refine exec_next_of_body hr ht hinv fun k => h.takeFault_fetched k ?_
    rw [encode_of_decode hd, hf]
  · cases ht
    have hexec : s.Executing := { h with running := hs, fetched := (fetch16_ok_iff.mp hf).1 }
    exact (hexec.emitUnknown w).advance

/-- What a step call that answers is made of: it fetched and ran on a Running state, then latched. -/
theorem coreStep_next_iff {run : Instr → State → StepOutcome} {keys : Keys} {rnd : Byte} {s t : State} :
    coreStep run keys rnd s = .next t ↔
      s.status = .running ∧ ∃ u, fetchAndRun run (supply keys rnd s) = .next u ∧ t = latchKeys u := by
  cases hs : s.status with
  | faulted r => simp [coreStep_faulted keys rnd hs]
  | running =>
    rw [coreStep_running keys rnd hs]
    cases fetchAndRun run (supply keys rnd s) <;> simp [endStep, eq_comm]

theorem coreStep_keeps_inv {keys : Keys} {rnd : Byte} {s t : State} (h : s.Inv)
    (ht : coreStep exec keys rnd s = .next t) : t.Inv := by
  obtain ⟨hs, u, hu, rfl⟩ := coreStep_next_iff.mp ht
  have hinv := fetchAndRun_keeps_inv (h.withHost s.keyPrev keys rnd s.calls s.draws s.event) hs hu
  exact hinv.latchKeys

end Sys2Proof.Machine
end

section
/-! SUPPORT. The step's inputs (spec/10_state.md R34): an instruction's meaning commutes with a change of
an input that it does not read. -/

namespace Sys2Proof.Machine

/-! ## Bodies under a map of the state -/

/-- A body that begins with the same read. -/
theorem bind_eq_map {α : Type} {u : State → State} {r : Except FaultKind α}
    {f f' : α → Except FaultKind State} (h : ∀ a, f' a = (f a).map u) :
    (r >>= f') = (r >>= f).map u := by
  cases r with
  | ok a => exact h a
  | error k => rfl

/-- A body that begins with an operation on the state. -/
theorem map_bind_eq_map {α : Type} {u : State → State} {g : α → α} {r r' : Except FaultKind α}
    {f f' : α → Except FaultKind State} (hr : r' = r.map g) (h : ∀ a, f' (g a) = (f a).map u) :
    (r' >>= f') = (r >>= f).map u := by
  subst hr
  cases r with
  | ok a => exact h a
  | error k => rfl

/-! ## Operations under other inputs -/

section
variable (keys : Keys) (rnd : Byte)

theorem commit_supply {i : Instr} {s : State} {r r' : Except FaultKind State}
    (h : r' = r.map (supply keys rnd)) :
    commit i (supply keys rnd s) r' = mapNext (supply keys rnd) (commit i s r) := by
  subst h
  cases r <;> rfl

theorem push_supply (v : Word) (s : State) :
    push v (supply keys rnd s) = (push v s).map (supply keys rnd) := by
  by_cases h : s.sp.val < 16 <;> simp [push, supply, Except.map, h]

theorem pop_supply (s : State) :
    pop (supply keys rnd s) = (pop s).map (Prod.map id (supply keys rnd)) := by
  by_cases h : s.sp.val = 0 <;> simp [pop, supply, Except.map, h]

theorem memWrite_supply (a : Nat) (b : Byte) (s : State) :
    memWrite a b (supply keys rnd s) = (memWrite a b s).map (supply keys rnd) := by
  simp only [memWrite]
  split <;> rfl

theorem readBytes_supply (n : Nat) : ∀ (a : Nat) (s : State),
    readBytes a n (supply keys rnd s) = readBytes a n s := by
  induction n with
  | zero => intro a s; rfl
  | succ n ih =>
    intro a s
    simp only [readBytes, ih]
    rfl

theorem writeBytes_supply (bs : List Byte) : ∀ (a : Nat) (s : State),
    writeBytes a bs (supply keys rnd s) = (writeBytes a bs s).map (supply keys rnd) := by
  induction bs with
  | nil => intro a s; rfl
  | cons b bs ih => exact fun a s => map_bind_eq_map (memWrite_supply keys rnd a b s) (ih (a + 1))

theorem storeRegs_supply (a n : Nat) : ∀ (k : Nat) (s : State),
    storeRegs a k n (supply keys rnd s) = (storeRegs a k n s).map (supply keys rnd) := by
  induction n with
  | zero => intro k s; rfl
  | succ n ih =>
    exact fun k s => bind_eq_map fun b =>
      map_bind_eq_map (memWrite_supply keys rnd (a + k) b s) (ih (k + 1))

theorem loadRegs_supply (a n : Nat) : ∀ (k : Nat) (s : State),
    loadRegs a k n (supply keys rnd s) = (loadRegs a k n s).map (supply keys rnd) := by
  induction n with
  | zero => intro k s; rfl
  | succ n ih => exact fun k s => bind_eq_map fun b => ih (k + 1) (s.setV (BitVec.ofNat 4 k) b)

theorem indexFlag_supply (a : Addr) (v : Byte) (s : State) :
    (supply keys rnd s).indexFlag a v = supply keys rnd (s.indexFlag a v) := by
  simp only [State.indexFlag, supply]
  split <;> rfl

/-! ## The table of readers -/

/-- Cxkk reads the random byte (R34). -/
def readsRnd : Instr → Bool
  | .rnd _ _ => true
  | _ => false

/-- Ex9E, ExA1 and Fx0A read the key vector (R240). -/
def readsKeys : Instr → Bool
  | .skp _ | .sknp _ | .ldVxK _ => true
  | _ => false

/-- R34, R240: an instruction does the same under other inputs, as long as those that it reads are as
they were. -/
theorem exec_supply {i : Instr} {s : State} (hr : readsRnd i = true → rnd = s.rnd)
    (hk : readsKeys i = true → keys = s.keys) :
    exec i (supply keys rnd s) = mapNext (supply keys rnd) (exec i s) := by
  cases i with
  | cls | sys _ | jp _ => rfl
  | ldVxKk x kk => rfl
  | ldINnn nnn => rfl
  | rnd x kk => cases hr rfl; rfl
  | skp x | sknp x =>
    cases hk rfl
    exact commit_supply _ _ (bind_eq_map fun _ => bind_eq_map fun _ => rfl)
  | ldVxK x =>
    cases hk rfl
    have hkey : pickKey (Config.freePick (supply s.keys rnd s).draws) (eventKeys (supply s.keys rnd s)) =
      pickKey (Config.freePick s.draws) (eventKeys s) := rfl
    refine commit_supply _ _ ?_
    rw [hkey]
    cases pickKey (Config.freePick s.draws) (eventKeys s) <;> rfl
  | ret => exact commit_supply _ _ (map_bind_eq_map (pop_supply keys rnd s) fun _ => rfl)
  | call nnn => exact commit_supply _ _ (map_bind_eq_map (push_supply keys rnd s.pc s) fun _ => rfl)
  | jpV0 nnn => exact commit_supply _ _ (bind_eq_map fun _ => rfl)
  | seVxKk x kk | sneVxKk x kk | addVxKk x kk => exact commit_supply _ _ (bind_eq_map fun _ => rfl)
  | seVxVy x y | sneVxVy x y | ldVxVy x y | orVxVy x y | andVxVy x y | xorVxVy x y | addVxVy x y
  | sub x y | shr x y | subn x y | shl x y => exact commit_supply _ _ (bind_eq_map fun _ => rfl)
  | ldVxDt x | ldDtVx x | ldStVx x | ldFVx x => exact commit_supply _ _ (bind_eq_map fun _ => rfl)
  | drw x y n =>
    refine commit_supply _ _ (bind_eq_map fun _ => bind_eq_map fun a => ?_)
    rw [readBytes_supply]
    exact bind_eq_map fun _ => rfl
  | addIVx x =>
    refine commit_supply _ _ (bind_eq_map fun a => bind_eq_map fun v => ?_)
    exact congrArg (fun t => Except.ok (State.advance t))
      (indexFlag_supply keys rnd a v (s.setI (indexSum a v)))
  | ldBVx x =>
    exact commit_supply _ _ (bind_eq_map fun v => bind_eq_map fun a =>
      map_bind_eq_map (writeBytes_supply keys rnd (decimalDigits v) a.toNat s) fun _ => rfl)
  | ldMemVx x =>
    exact commit_supply _ _ (bind_eq_map fun a =>
      map_bind_eq_map (storeRegs_supply keys rnd a.toNat (x.toNat + 1) 0 s) fun _ => rfl)
  | ldVxMem x =>
    exact commit_supply _ _ (bind_eq_map fun a =>
      map_bind_eq_map (loadRegs_supply keys rnd a.toNat (x.toNat + 1) 0 s) fun _ => rfl)

end

/-! ## What an outcome's map sees -/

@[simp] theorem readsRnd_iff {i : Instr} : readsRnd i = true ↔ ∃ x kk, i = .rnd x kk := by
  cases i <;> simp [readsRnd]

@[simp] theorem readsKeys_iff {i : Instr} :
    readsKeys i = true ↔ (∃ x, i = .skp x) ∨ (∃ x, i = .sknp x) ∨ ∃ x, i = .ldVxK x := by
  cases i <;> simp [readsKeys]

theorem mapNext_congr {f g : State → State} {o : StepOutcome} (h : ∀ t, o = .next t → f t = g t) :
    mapNext f o = mapNext g o := by
  cases o with
  | next t => exact congrArg _ (h t rfl)
  | fault r => rfl
  | refused r => rfl

/-! ## The key latch over a step call -/

/-- Fetching and running leaves the latch and the key vector to the host. -/
theorem fetchAndRun_keeps_keys {s t : State} (h : fetchAndRun exec s = .next t) :
    t.keyPrev = s.keyPrev ∧ t.keys = s.keys := by
  rcases fetchAndRun_cases exec s with ⟨k, -, e⟩ | ⟨w, i, -, -, e⟩ | ⟨w, _, -, -, e⟩ <;> rw [e] at h
  · cases h; exact ⟨rfl, rfl⟩
  · obtain ⟨-, hlatch, hkeys, -⟩ := (exec_sameBut h).host (by simp)
    exact ⟨hlatch, hkeys⟩
  · cases h; exact ⟨rfl, rfl⟩

@[simp] theorem latchKeys_status (t : State) : (latchKeys t).status = t.status := by
  cases h : t.status with
  | running => rw [latchKeys_running h]; exact h
  | faulted r => rw [latchKeys_faulted h]; exact h

/-! ## Timers -/

theorem Reg.readable_iff {w : Nat} {p : Params} {r : Reg w} :
    r.readable p = true ↔ p.resetRegs = .zero ∨ r.written = true := by
  unfold Reg.readable
  cases p.resetRegs <;> simp

theorem Reg.unreadable_of_unwritten {w : Nat} {p : Params} {r : Reg w}
    (hp : p.resetRegs = .unwrittenFaults) (hw : r.written = false) : r.readable p = false := by
  simp [Reg.readable, hp, hw]

@[simp] theorem tickTimer_written (p : Params) (r : Reg 8) : (tickTimer p r).written = r.written := by
  rcases tickTimer_cases p r with e | ⟨-, -, e⟩ <;> rw [e]

@[simp] theorem tickTimer_readable (p q : Params) (r : Reg 8) :
    (tickTimer p r).readable q = r.readable q := by simp [Reg.readable]

theorem tickTimer_of_readable {p : Params} {r : Reg 8} (h : r.readable p = true) :
    (tickTimer p r).val.toNat = r.val.toNat - 1 := by
  unfold tickTimer
  split
  · next hr => have := hr.2; bv_omega
  · next hr =>
    have hzero : r.val = 0x00#8 := Decidable.byContradiction fun hne => hr ⟨h, hne⟩
    rw [hzero]; rfl

theorem tickTimer_of_unreadable {p : Params} {r : Reg 8} (h : r.readable p = false) :
    tickTimer p r = r := by simp [tickTimer, h]

theorem step_tick_running {s : State} {rest : List HostCall} (h : s.calls = .tick :: rest)
    (hs : s.status = .running) :
    step s = .next { s with calls := rest, event := none, draws := s.draws + 1,
                            DT := tickTimer s.params s.DT, ST := tickTimer s.params s.ST } :=
  (step_tick h).trans (congrArg Host.Outcome.next (tick_running hs))

theorem tick_not_running {s : State} (hs : s.status ≠ .running) : tick s = s := by
  unfold tick
  split
  · rfl
  · exact absurd ‹_› hs

theorem step_tick_not_running {s : State} {rest : List HostCall} (h : s.calls = .tick :: rest)
    (hs : s.status ≠ .running) :
    step s = .next { s with calls := rest, event := none, draws := s.draws + 1 } :=
  (step_tick h).trans (congrArg Host.Outcome.next (tick_not_running hs))

end Sys2Proof.Machine
end

section
/-! The statements of the family 10_state.md: the invariant, the reset, the key latch, the inputs, the
timers and the sound signal. -/

namespace Sys2Proof.Machine

/-- Settles O18: a host call is a tick, or a step call that fetches, runs and latches, and each of these
keeps the invariant. -/
theorem stepKeepsTheInvariant : Obligations.StepKeepsTheInvariant := by
  intro s t h ht
  obtain ⟨rest, hstep⟩ := step_cases s
  have hcall := h.withHost s.keyPrev s.keys s.rnd rest (s.draws + 1) none
  rcases hstep with hstep | ⟨keys, rnd, hstep⟩ <;> rw [hstep] at ht
  · cases ht
    exact hcall.tick
  · exact coreStep_keeps_inv hcall ht

/-- Settles O10: fetching and running leaves the latch and the key vector, so the latch at the end of
the step is all that writes it. -/
theorem stepLatchesTheKeys : Obligations.StepLatchesTheKeys := by
  intro s t keys rnd rest hcall ht
  rw [step_step hcall] at ht
  obtain ⟨-, u, hu, rfl⟩ := coreStep_next_iff.mp ht
  obtain ⟨hlatch, hkeys⟩ := fetchAndRun_keeps_keys hu
  rw [latchKeys_status]
  cases hs : u.status with
  | running => exact ⟨fun _ => by rw [latchKeys_running hs]; exact hkeys, fun h => absurd rfl h⟩
  | faulted r => exact ⟨nofun, fun _ => by rw [latchKeys_faulted hs]; exact hlatch⟩

/-- Settles O31: a change of an input that the instruction does not read commutes with its meaning, and
every next state has the other input as it was. -/
theorem inputsAreReadByTheirInstructions : Obligations.InputsAreReadByTheirInstructions := by
  intro i s b ks
  refine ⟨fun hrnd => ?_, fun hskp hsknp hwait => ?_⟩
  · refine (exec_supply s.keys b (by simp [hrnd]) fun _ => rfl).trans (mapNext_congr fun t ht => ?_)
    obtain ⟨-, -, hkeys, -⟩ := (exec_sameBut ht).host (by simp)
    rw [← hkeys]; rfl
  · refine (exec_supply ks s.rnd (fun _ => rfl) (by simp [hskp, hsknp, hwait])).trans
      (mapNext_congr fun t ht => ?_)
    obtain ⟨-, -, -, hrnd, -⟩ := (exec_sameBut ht).host (by simp)
    rw [← hrnd]; rfl

/-- Settles O13. -/
theorem tickCountsTheTimersDown : Obligations.TickCountsTheTimersDown := by
  intro s rest hcall
  by_cases hs : s.status = .running
  · exact ⟨_, step_tick_running hcall hs, rfl,
      fun _ => ⟨tickTimer_of_readable, tickTimer_of_unreadable, tickTimer_of_readable,
        tickTimer_of_unreadable, tickTimer_written _ _, tickTimer_written _ _⟩,
      fun h => absurd hs h⟩
  · exact ⟨_, step_tick_not_running hcall hs, rfl, fun h => absurd h hs, fun _ => ⟨rfl, rfl⟩⟩

/-- Settles O17: reset's memory is canonical, its slots and registers are 0, its status is Running. -/
theorem resetMeetsTheInvariant : Obligations.ResetMeetsTheInvariant := by
  have hreset (p : Params) (hp : p.Legal) : (State.resetWith p).Inv :=
    { params := hp
      memory := resetWith_mem_wf p
      pc := (by decide : (0x200#16).toNat ≤ 0x10FE)
      slots := by simp [State.resetWith]
      unwritten := ⟨fun x _ => by simp [State.getV, State.regV, State.resetWith],
        fun _ => rfl, fun _ => rfl, fun _ => rfl⟩
      precise := State.precise_of_running rfl }
  exact ⟨hreset, hreset Params.defaults (by decide)⟩

/-- Settles O20: reset's framebuffer is the blank grid; the other values are its fields. -/
theorem resetStatedValues : Obligations.ResetStatedValues :=
  ⟨rfl, fun _ => ⟨rfl, rfl, rfl, pixel_blankGrid, rfl⟩⟩

/-- Settles O60: whether ST can be read decides the signal, and a tick keeps that. -/
theorem soundFollowsTheSoundTimer : Obligations.SoundFollowsTheSoundTimer := by
  intro s
  refine ⟨fun h => State.sound_of_readable (Reg.readable_iff.mpr h),
    fun hp hw => State.sound_of_unreadable (Reg.unreadable_of_unwritten hp hw),
    fun rest hcall hs => ⟨_, step_tick_running hcall hs, fun h => ?_, fun hp hw => ?_⟩⟩
  · have hread := Reg.readable_iff.mpr h
    have hval := tickTimer_of_readable hread
    rw [State.sound_of_readable (by simpa using hread)]
    bv_omega
  · exact State.sound_of_unreadable (by simpa using Reg.unreadable_of_unwritten hp hw)

end Sys2Proof.Machine
end

section
/-! SUPPORT. The fetch by the range of its address (spec/20_memory.md R53), and what an Fx55 that stores
answers (spec/43_index_memory.md R174). -/

namespace Sys2Proof.Machine

/-! ## The fetch -/

theorem fetch16_ok {a : Nat} (s : State) (h : a < 0xFFF) :
    fetch16 a s = .ok (wordOfBytes (s.byteAt a) (s.byteAt (a + 1))) :=
  fetch16_ok_iff.mpr ⟨Nat.le_of_lt_succ h, rfl⟩

theorem fetch16_error {a : Nat} (s : State) (h : a > 0xFFF) :
    fetch16 a s = .error (.outOfRange a) := if_pos h

/-- The high byte of a fetch at the last address is inside memory, the low one is not. -/
theorem fetch16_top (s : State) : fetch16 0xFFF s = .error (.outOfRange 0x1000) := rfl

/-! ## The store of registers -/

/-- An Fx55 whose operands can be read and whose stores stay inside memory answers the state its stores
leave, with I and pc moved on. -/
theorem exec_ldMemVx_ok {s : State} {x : Nibble} (hI : s.CanReadI) (hV : ∀ r, r ≤ x → s.CanReadV r)
    (hx : s.I.val.toNat + x.toNat ≤ 0xFFF) :
    ∃ u, exec (.ldMemVx x) s = .next (u.afterTransfer s.I.val x).advance ∧
      StoredAt s u s.I.val.toNat (x.toNat + 1) ∧
      ∀ j, j ≤ x.toNat → u.byteAt (s.I.val.toNat + j) = s.getV (BitVec.ofNat 4 j) := by
  have hread (j : Nat) (_ : 0 ≤ j) (hj : j < 0 + (x.toNat + 1)) : s.CanReadV (BitVec.ofNat 4 j) :=
    hV _ (by bv_omega)
  obtain ⟨u, hu, hstored, hbytes⟩ :=
    storeRegs_ok s.I.val.toNat (x.toNat + 1) 0 s (by omega) (by omega) hread
  refine ⟨u, ?_, hstored, fun j hj => hbytes j (Nat.zero_le j) (by omega)⟩
  change execLdMemVx x s = _
  rw [execLdMemVx, readI_ok hI, except_bind_ok, hu]
  rfl

end Sys2Proof.Machine
end

section
/-! The statements of the family 20_memory.md: the memory primitives, and the fetch of stored bytes. -/

namespace Sys2Proof.Machine

/-- Settles O7: the bytes Fx55 stores are the registers, and the moves of I and pc after them leave
memory; the fetch joins two neighbours. -/
theorem storedBytesAreFetchedAsCode : Obligations.StoredBytesAreFetchedAsCode := by
  intro x s t k hI hV hx hk ht
  obtain ⟨u, hu, -, hbytes⟩ := exec_ldMemVx_ok hI hV hx
  cases hu.symm.trans ht
  refine ⟨_, fetch16_ok _ (by omega), ?_, ?_⟩
  · simpa using hbytes k (by omega)
  · simpa [Nat.add_assoc] using hbytes (k + 1) hk

/-- Settles O6: one clause per range of the address; the write is `State.setByte`. -/
theorem memoryPrimitives : Obligations.MemoryPrimitives := by
  intro a s v
  refine ⟨fun h => ⟨memRead_error s h, memWrite_error v s h, fetch16_error s h⟩,
    fun h => ⟨memRead_ok s h, _, memWrite_ok v s h, State.byteAt_setByte_same s a v, fun b hb => ?_, rfl⟩,
    fun h => h ▸ fetch16_top s, fun h => ⟨_, fetch16_ok s h, wordOfBytes_toNat _ _⟩⟩
  exact State.byteAt_setByte_ne s v (by omega)

end Sys2Proof.Machine
end

section
/-! SUPPORT. The encoding (spec/30_encoding.md R70 to R77): decoding undoes encoding, the word that
a row's fixed bits leave, and which words the decoder rejects. -/

namespace Sys2Proof

/-! ## Decoding undoes encoding -/

/-- R76: SYS is well formed just when its address is not that of CLS or RET. -/
theorem wellFormed_sys_iff {nnn : Addr} :
    (Instr.sys nnn).WellFormed ↔ nnn ≠ 0x0E0#12 ∧ nnn ≠ 0x0EE#12 := by
  simp [Instr.WellFormed, Instr.wellFormed]

theorem decode_encode_sys {nnn : Addr} (h : (Instr.sys nnn).WellFormed) :
    decode (encode (.sys nnn)) = .ok (.sys nnn) := by
  obtain ⟨hcls, hret⟩ := wellFormed_sys_iff.mp h
  have hcls' : wordNnn 0x0#4 nnn ≠ 0x00E0#16 := fun e =>
    hcls (by rw [← nnnOf_wordNnn 0x0#4 nnn, e]; decide)
  have hret' : wordNnn 0x0#4 nnn ≠ 0x00EE#16 := fun e =>
    hret (by rw [← nnnOf_wordNnn 0x0#4 nnn, e]; decide)
  simp [encode, decode, decode0, hcls', hret']

/-- R73: the word of a well-formed instruction decodes to it: the decoder branches on the fields of an
assembled word, which are the ones it was assembled from. -/
theorem decode_encode {i : Instr} (h : i.WellFormed) : decode (encode i) = .ok i := by
  cases i with
  | cls | ret => rfl
  | sys nnn => exact decode_encode_sys h
  | jp nnn | call nnn | ldINnn nnn | jpV0 nnn => simp [encode, decode]
  | seVxKk x kk | sneVxKk x kk | ldVxKk x kk | addVxKk x kk | rnd x kk => simp [encode, decode]
  | seVxVy x y | sneVxVy x y => simp [encode, decode]
  | drw x y n => simp [encode, decode]
  | ldVxVy x y | orVxVy x y | andVxVy x y | xorVxVy x y | addVxVy x y | sub x y | shr x y | subn x y
  | shl x y => simp [encode, decode, decode8]
  | skp x | sknp x => simp [encode, decode, decodeE]
  | ldVxDt x | ldVxK x | ldDtVx x | ldStVx x | addIVx x | ldFVx x | ldBVx x | ldMemVx x | ldVxMem x =>
    simp [encode, decode, decodeF]

theorem decodeBytes_encodeBytes {i : Instr} (h : i.WellFormed) (rest : List Byte) :
    decodeBytes (encodeBytes i ++ rest) = .ok (i, rest) := by
  simp [encodeBytes, decodeBytes, decode_encode h]

/-- The decoder reads SYS from neither 00E0 nor 00EE. -/
theorem wellFormed_of_decode {w : Word} {i : Instr} (hd : decode w = .ok i) : i.WellFormed := by
  cases i with
  | sys nnn =>
    rw [← encode_of_decode hd] at hd
    refine wellFormed_sys_iff.mpr ⟨?_, ?_⟩ <;> rintro rfl <;> exact absurd hd (by decide)
  | _ => rfl

/-! ## The word a row's fixed bits leave -/

theorem opOf_and (w m : Word) : opOf (w &&& m) = opOf w &&& opOf m := BitVec.extractLsb'_and

theorem nOf_and (w m : Word) : nOf (w &&& m) = nOf w &&& nOf m := BitVec.extractLsb'_and

theorem kkOf_and (w m : Word) : kkOf (w &&& m) = kkOf w &&& kkOf m := BitVec.extractLsb'_and

/-- A mask that fixes the op shows it. -/
theorem opOf_of_masked {w m k : Word} (h : w &&& m = k) (hm : opOf m = 0xF#4) : opOf w = opOf k := by
  rw [← h, opOf_and, hm, nibble_and_ones]

section
variable {w : Word} {op : Nibble}

theorem wordNnn_of_row (h : w &&& 0xF000#16 = wordNnn op 0#12) : wordNnn op (nnnOf w) = w :=
  wordNnn_of_fields w (by rw [opOf_of_masked h (by decide), opOf_wordNnn])

theorem wordXKk_of_row (h : w &&& 0xF000#16 = wordXKk op 0#4 0#8) :
    wordXKk op (xOf w) (kkOf w) = w :=
  wordXKk_of_fields w (by rw [opOf_of_masked h (by decide), opOf_wordXKk])

theorem wordXYN_of_row (h : w &&& 0xF000#16 = wordXYN op 0#4 0#4 0#4) :
    wordXYN op (xOf w) (yOf w) (nOf w) = w :=
  wordXYN_of_fields w (by rw [opOf_of_masked h (by decide), opOf_wordXYN])

theorem wordXYN_of_row_n {n : Nibble} (h : w &&& 0xF00F#16 = wordXYN op 0#4 0#4 n) :
    wordXYN op (xOf w) (yOf w) n = w := by
  have hn : nOf w = n := by
    rw [← nOf_wordXYN op 0#4 0#4 n, ← h, nOf_and]
    exact (nibble_and_ones _).symm
  exact wordXYN_of_nibbles (by rw [opOf_of_masked h (by decide), opOf_wordXYN]) (by rw [hn])

theorem wordXKk_of_row_kk {kk : Byte} (h : w &&& 0xF0FF#16 = wordXKk op 0#4 kk) :
    wordXKk op (xOf w) kk = w := by
  have hkk : kkOf w = kk := by
    rw [← kkOf_wordXKk op 0#4 kk, ← h, kkOf_and]
    exact (byte_and_ones _).symm
  exact wordXKk_of_byte (by rw [opOf_of_masked h (by decide), opOf_wordXKk]) (by rw [hkk])

end

/-- A word with the fixed bits of a row is the word of an instruction of that row, whose operands are
the word's other fields. -/
theorem exists_encode_eq_of_row {w : Word} {i : Instr} (hsys : ∀ nnn, i ≠ .sys nnn)
    (h : w &&& (rowBits i).1 = (rowBits i).2) :
    ∃ j, j.WellFormed ∧ encode j = w ∧ rowBits j = rowBits i := by
  cases i with
  | sys nnn => exact absurd rfl (hsys nnn)
  | cls => exact ⟨.cls, rfl, h.symm.trans BitVec.and_allOnes, rfl⟩
  | ret => exact ⟨.ret, rfl, h.symm.trans BitVec.and_allOnes, rfl⟩
  | jp nnn => exact ⟨.jp _, rfl, wordNnn_of_row h, rfl⟩
  | call nnn => exact ⟨.call _, rfl, wordNnn_of_row h, rfl⟩
  | ldINnn nnn => exact ⟨.ldINnn _, rfl, wordNnn_of_row h, rfl⟩
  | jpV0 nnn => exact ⟨.jpV0 _, rfl, wordNnn_of_row h, rfl⟩
  | seVxKk x kk => exact ⟨.seVxKk _ _, rfl, wordXKk_of_row h, rfl⟩
  | sneVxKk x kk => exact ⟨.sneVxKk _ _, rfl, wordXKk_of_row h, rfl⟩
  | ldVxKk x kk => exact ⟨.ldVxKk _ _, rfl, wordXKk_of_row h, rfl⟩
  | addVxKk x kk => exact ⟨.addVxKk _ _, rfl, wordXKk_of_row h, rfl⟩
  | rnd x kk => exact ⟨.rnd _ _, rfl, wordXKk_of_row h, rfl⟩
  | drw x y n => exact ⟨.drw _ _ _, rfl, wordXYN_of_row h, rfl⟩
  | seVxVy x y => exact ⟨.seVxVy _ _, rfl, wordXYN_of_row_n h, rfl⟩
  | sneVxVy x y => exact ⟨.sneVxVy _ _, rfl, wordXYN_of_row_n h, rfl⟩
  | ldVxVy x y => exact ⟨.ldVxVy _ _, rfl, wordXYN_of_row_n h, rfl⟩
  | orVxVy x y => exact ⟨.orVxVy _ _, rfl, wordXYN_of_row_n h, rfl⟩
  | andVxVy x y => exact ⟨.andVxVy _ _, rfl, wordXYN_of_row_n h, rfl⟩
  | xorVxVy x y => exact ⟨.xorVxVy _ _, rfl, wordXYN_of_row_n h, rfl⟩
  | addVxVy x y => exact ⟨.addVxVy _ _, rfl, wordXYN_of_row_n h, rfl⟩
  | sub x y => exact ⟨.sub _ _, rfl, wordXYN_of_row_n h, rfl⟩
  | shr x y => exact ⟨.shr _ _, rfl, wordXYN_of_row_n h, rfl⟩
  | subn x y => exact ⟨.subn _ _, rfl, wordXYN_of_row_n h, rfl⟩
  | shl x y => exact ⟨.shl _ _, rfl, wordXYN_of_row_n h, rfl⟩
  | skp x => exact ⟨.skp _, rfl, wordXKk_of_row_kk h, rfl⟩
  | sknp x => exact ⟨.sknp _, rfl, wordXKk_of_row_kk h, rfl⟩
  | ldVxDt x => exact ⟨.ldVxDt _, rfl, wordXKk_of_row_kk h, rfl⟩
  | ldVxK x => exact ⟨.ldVxK _, rfl, wordXKk_of_row_kk h, rfl⟩
  | ldDtVx x => exact ⟨.ldDtVx _, rfl, wordXKk_of_row_kk h, rfl⟩
  | ldStVx x => exact ⟨.ldStVx _, rfl, wordXKk_of_row_kk h, rfl⟩
  | addIVx x => exact ⟨.addIVx _, rfl, wordXKk_of_row_kk h, rfl⟩
  | ldFVx x => exact ⟨.ldFVx _, rfl, wordXKk_of_row_kk h, rfl⟩
  | ldBVx x => exact ⟨.ldBVx _, rfl, wordXKk_of_row_kk h, rfl⟩
  | ldMemVx x => exact ⟨.ldMemVx _, rfl, wordXKk_of_row_kk h, rfl⟩
  | ldVxMem x => exact ⟨.ldVxMem _, rfl, wordXKk_of_row_kk h, rfl⟩

/-! ## The rejected words -/

/-- R74(c): the unused low nibbles of op = 8. -/
theorem decode8_error_iff {w : Word} {e : DecodeError} : decode8 w = .error e ↔
    e = .unknownOpcode w ∧ (nOf w).toNat ∈ [0x8, 0x9, 0xA, 0xB, 0xC, 0xD, 0xF] := by
  have := (nOf w).isLt
  unfold decode8
  split
  case h_10 => simp only [imp_false] at *; simp [eq_comm (a := e)]; omega
  all_goals simp [*]

/-- R74(e): every low byte of op = E but two. -/
theorem decodeE_error_iff {w : Word} {e : DecodeError} : decodeE w = .error e ↔
    e = .unknownOpcode w ∧ (kkOf w).toNat ∉ [0x9E, 0xA1] := by
  unfold decodeE
  split <;> simp_all [eq_comm (a := e)]

/-- R74(f): every low byte of op = F but nine. -/
theorem decodeF_error_iff {w : Word} {e : DecodeError} : decodeF w = .error e ↔
    e = .unknownOpcode w ∧
      (kkOf w).toNat ∉ [0x07, 0x0A, 0x15, 0x18, 0x1E, 0x29, 0x33, 0x55, 0x65] := by
  unfold decodeF
  split <;> simp_all [eq_comm (a := e)]

/-- R74(b) to (f), on the fields of the word. -/
def RejectedWord (w : Word) : Prop :=
  ((opOf w).toNat = 0x5 ∧ (nOf w).toNat ≠ 0) ∨
  ((opOf w).toNat = 0x8 ∧ (nOf w).toNat ∈ [0x8, 0x9, 0xA, 0xB, 0xC, 0xD, 0xF]) ∨
  ((opOf w).toNat = 0x9 ∧ (nOf w).toNat ≠ 0) ∨
  ((opOf w).toNat = 0xE ∧ (kkOf w).toNat ∉ [0x9E, 0xA1]) ∨
  ((opOf w).toNat = 0xF ∧
    (kkOf w).toNat ∉ [0x07, 0x0A, 0x15, 0x18, 0x1E, 0x29, 0x33, 0x55, 0x65])

/-- R74: the decoder rejects those words alone, each by its name. -/
theorem decode_error_iff {w : Word} {e : DecodeError} : decode w = .error e ↔
    e = .unknownOpcode w ∧ RejectedWord w := by
  unfold decode
  split
  case h_6 h | h_10 h => split <;> simp_all [RejectedWord, BitVec.toNat_eq, eq_comm (a := e)]
  case h_9 h => simp [RejectedWord, h, decode8_error_iff]
  case h_15 h => simp [RejectedWord, h, decodeE_error_iff]
  case h_16 =>
    have hop : (opOf w).toNat = 0xF := by
      have := (opOf w).isLt
      simp only [imp_false] at *
      omega
    simp [RejectedWord, hop, decodeF_error_iff]
  all_goals simp [RejectedWord, *]

/-- R74(a), R76: an op = 0 word but CLS and RET is SYS. -/
theorem decode_op0 {w : Word} (h : (opOf w).toNat = 0x0) (hcls : w ≠ 0x00E0#16) (hret : w ≠ 0x00EE#16) :
    decode w = .ok (.sys (nnnOf w)) := by simp [decode, decode0, h, hcls, hret]

end Sys2Proof
end

section
/-! The statements of the family 30_encoding.md about the decoder and the encoder. -/

namespace Sys2Proof

/-- Settles O1. -/
theorem decodeOfEncodeIsTheInstruction : Obligations.DecodeOfEncodeIsTheInstruction :=
  fun _ rest h => ⟨decode_encode h, decodeBytes_encodeBytes h rest⟩

/-- Settles O2. -/
theorem encodeOfDecodeIsTheWord : Obligations.EncodeOfDecodeIsTheWord :=
  fun _ _ h => ⟨wellFormed_of_decode h, encode_of_decode h⟩

/-- Settles O3: the word is an instruction of that row encoded, and so decodes to it. -/
theorem matchingWordDecodesToItsRow : Obligations.MatchingWordDecodesToItsRow := by
  intro w i hsys h
  obtain ⟨j, hj, rfl, hrow⟩ := exists_encode_eq_of_row hsys h
  exact ⟨j, decode_encode hj, hrow⟩

/-- Settles O4: the statement's arithmetic on the word is that of its fields. -/
theorem unknownWordsAreTheListedOnes : Obligations.UnknownWordsAreTheListedOnes := by
  intro w
  have hop : w.toNat / 0x1000 = (opOf w).toNat := by have := opOf_toNat w; omega
  rw [hop, ← nOf_toNat, ← kkOf_toNat]
  refine ⟨?_, decode_error_iff.trans (and_iff_right rfl), fun h hcls hret =>
    ⟨nnnOf w, ?_, decode_op0 h hcls hret⟩⟩
  · cases hd : decode w with
    | ok i => exact .inl ⟨i, rfl⟩
    | error e => exact .inr (congrArg _ (decode_error_iff.mp hd).1)
  · rw [nnnOf_toNat]; omega

/-- Settles O5, by evaluation of twelve closed words. -/
theorem sampleWordsDecode : Obligations.SampleWordsDecode := by
  unfold Obligations.SampleWordsDecode
  decide

end Sys2Proof
end

section
/-! SUPPORT. What an instruction's step answers (spec/30_encoding.md R81), and a step call on a Running
VM by what its fetch gives (R79). -/

namespace Sys2Proof.Machine

/-! ## The status of a body that answers -/

theorem status_of_push {v : Word} {s t : State} (h : push v s = .ok t) : t.status = s.status := by
  unfold push at h
  split at h
  · cases h; rfl
  · cases h

theorem status_of_pop {s t : State} {r : Word} (h : pop s = .ok (r, t)) : t.status = s.status := by
  rcases pop_cases s with ⟨-, e⟩ | ⟨_, _, e⟩ <;> rw [e] at h <;> cases h
  rfl

theorem StoredAt.status {s t : State} {a n : Nat} (h : StoredAt s t a n) : t.status = s.status := by
  rw [h.rest]

theorem status_of_loadRegs {a : Nat} {x : Nibble} {s t : State}
    (h : loadRegs a 0 (x.toNat + 1) s = .ok t) : t.status = s.status := by
  have := x.isLt
  rw [(loadRegs_loaded a (x.toNat + 1) (by omega) h).1]

/-- A body's result, if it answers one, has the status as before. -/
def KeepsStatus (s : State) (r : Except FaultKind State) : Prop := ∀ t, r = .ok t → t.status = s.status

theorem KeepsStatus.ok {s t : State} (h : t.status = s.status) : KeepsStatus s (.ok t) := by
  rintro _ ⟨⟩
  exact h

theorem KeepsStatus.bind {α : Type} {s : State} {r : Except FaultKind α}
    {f : α → Except FaultKind State} (h : ∀ a, r = .ok a → KeepsStatus s (f a)) :
    KeepsStatus s (r >>= f) := by
  intro t ht
  obtain ⟨a, ha, hf⟩ := except_bind_ok_iff.mp ht
  exact h a ha t hf

/-- No instruction's body writes the status: that is left to `commit`. -/
theorem exec_keepsStatus (i : Instr) (s : State) : ∃ r, exec i s = commit i s r ∧ KeepsStatus s r := by
  cases i with
  | cls | sys _ | jp _ | ldINnn _ => exact ⟨.ok _, rfl, .ok rfl⟩
  | ldVxKk _ _ | rnd _ _ => exact ⟨.ok _, rfl, .ok rfl⟩
  | ret =>
    exact ⟨_, rfl, .bind fun ⟨_, _⟩ h => .ok ((State.setPc_status _ _).trans (status_of_pop h))⟩
  | call _ => exact ⟨_, rfl, .bind fun _ h => .ok ((State.setPc_status _ _).trans (status_of_push h))⟩
  | jpV0 _ => exact ⟨_, rfl, .bind fun _ _ => .ok rfl⟩
  | seVxKk _ _ | sneVxKk _ _ | addVxKk _ _ => exact ⟨_, rfl, .bind fun _ _ => .ok rfl⟩
  | seVxVy _ _ | sneVxVy _ _ | ldVxVy _ _ | orVxVy _ _ | andVxVy _ _ | xorVxVy _ _ | addVxVy _ _
  | sub _ _ | shr _ _ | subn _ _ | shl _ _ => exact ⟨_, rfl, .bind fun _ _ => .ok rfl⟩
  | ldVxDt _ | ldDtVx _ | ldStVx _ | ldFVx _ => exact ⟨_, rfl, .bind fun _ _ => .ok rfl⟩
  | skp _ | sknp _ => exact ⟨_, rfl, .bind fun _ _ => .bind fun _ _ => .ok rfl⟩
  | drw _ _ _ => exact ⟨_, rfl, .bind fun _ _ => .bind fun _ _ => .bind fun _ _ => .ok rfl⟩
  | ldVxK _ =>
    refine ⟨_, rfl, ?_⟩
    split <;> exact .ok rfl
  | addIVx _ => exact ⟨_, rfl, .bind fun a _ => .bind fun v _ => .ok (State.indexFlag_status _ a v)⟩
  | ldBVx _ =>
    exact ⟨_, rfl, .bind fun _ _ => .bind fun _ _ => .bind fun _ h =>
      .ok (writeBytes_storedAt _ h).status⟩
  | ldMemVx _ =>
    exact ⟨_, rfl, .bind fun _ _ => .bind fun _ h => .ok (storeRegs_storedAt _ _ h).status⟩
  | ldVxMem _ =>
    exact ⟨_, rfl, .bind fun _ _ => .bind fun _ h => .ok (by simpa using status_of_loadRegs h)⟩

/-! ## What a step answers -/

/-- R81: an instruction's step always answers a next state. -/
theorem exec_answers (i : Instr) (s : State) : ∃ t, exec i s = .next t := by
  obtain ⟨r, e⟩ := exec_eq_commit i s
  rcases commit_cases i s r with ⟨t, -, h⟩ | ⟨k, -, h⟩
  · exact ⟨t, e.trans h⟩
  · exact ⟨_, e.trans h⟩

theorem fetchAndRun_exec_answers (s : State) : ∃ t, fetchAndRun exec s = .next t := by
  rcases fetchAndRun_cases exec s with ⟨k, -, e⟩ | ⟨w, i, -, -, e⟩ | ⟨w, _, -, -, e⟩
  · exact ⟨_, e⟩
  · obtain ⟨t, h⟩ := exec_answers i s
    exact ⟨t, e.trans h⟩
  · exact ⟨_, e⟩

/-- A step call on a Running VM answers a next state. -/
theorem coreStep_exec_answers (keys : Keys) (rnd : Byte) {s : State} (hs : s.status = .running) :
    ∃ t, coreStep exec keys rnd s = .next t := by
  obtain ⟨u, hu⟩ := fetchAndRun_exec_answers (supply keys rnd s)
  exact ⟨_, coreStep_next_iff.mpr ⟨hs, u, hu, rfl⟩⟩

/-! ## A step call on a Running VM -/

@[simp] theorem delivered_pc (s : State) (rest : List HostCall) (keys : Keys) (rnd : Byte) :
    (delivered s rest keys rnd).pc = s.pc := rfl

@[simp] theorem fetch16_delivered (a : Nat) (s : State) (rest : List HostCall) (keys : Keys)
    (rnd : Byte) : fetch16 a (delivered s rest keys rnd) = fetch16 a s := fetch16_congr rfl rfl a

theorem fetchAndRun_of_fault {run : Instr → State → StepOutcome} {s : State} {k : FaultKind}
    (hf : fetch16 s.pc.toNat s = .error k) : fetchAndRun run s = .next (takeFault k none s) := by
  simp [fetchAndRun, hf]

theorem fetchAndRun_of_decode {run : Instr → State → StepOutcome} {s : State} {w : Word} {i : Instr}
    (hf : fetch16 s.pc.toNat s = .ok w) (hd : decode w = .ok i) : fetchAndRun run s = run i s := by
  simp [fetchAndRun, hf, hd]

theorem fetchAndRun_of_unknown {run : Instr → State → StepOutcome} {s : State} {w : Word}
    {e : DecodeError} (hf : fetch16 s.pc.toNat s = .ok w) (hd : decode w = .error e) :
    fetchAndRun run s = .next (unknownWord w s) := by
  simp [fetchAndRun, hf, hd, execUnknown]

/-- The end of a step is the key latch on a Running next state. -/
theorem endStep_eq_mapNext (o : StepOutcome) :
    endStep o = mapNext (fun t => if t.status = .running then { t with keyPrev := t.keys } else t) o := by
  cases o with
  | next t =>
    cases hs : t.status with
    | running => simp [mapNext, latchKeys_running hs, hs]
    | faulted r => simp [mapNext, latchKeys_faulted hs, hs]
  | fault r => rfl
  | refused r => rfl

section
variable {s : State} {keys : Keys} {rnd : Byte} {rest : List HostCall}

theorem step_running (hs : s.status = .running) (hc : s.calls = .step keys rnd :: rest) :
    step s = endStep (fetchAndRun exec (delivered s rest keys rnd)) :=
  (step_step hc).trans (coreStep_running keys rnd hs)

/-- A step whose fetch gives the word of an instruction that answers a Running state: that state, with
the keys latched. -/
theorem step_of_encode {i : Instr} {t : State} (hs : s.status = .running)
    (hc : s.calls = .step keys rnd :: rest) (hi : i.WellFormed)
    (hf : fetch16 s.pc.toNat s = .ok (encode i))
    (ht : exec i (delivered s rest keys rnd) = .next t) (hrun : t.status = .running) :
    step s = .next { t with keyPrev := t.keys } := by
  rw [step_running hs hc, fetchAndRun_of_decode (by simpa using hf) (decode_encode hi), ht,
    endStep_next, latchKeys_running hrun]

end

/-! ## CALL and RET -/

/-- A jump's or call's target is inside the address space, so no policy changes it. -/
theorem pcValue_targetOf (p : Params) (nnn : Addr) : (pcValue p (targetOf nnn)).toNat = nnn.toNat := by
  have h : (targetOf nnn).toNat = nnn.toNat := by unfold targetOf; bv_omega
  unfold pcValue
  split
  · exact h
  · rw [BitVec.toNat_umod, h]
    exact Nat.mod_eq_of_lt nnn.isLt

theorem exec_call_ok {s : State} (nnn : Addr) (h : s.sp.val < 16) :
    exec (.call nnn) s = .next (State.setPc
      { s with stack := s.stack.set s.sp.val s.pc h, sp := ⟨s.sp.val + 1, by omega⟩ }
      (targetOf nnn)) := by
  change execCall nnn s = _
  rw [execCall, push_ok s.pc h]
  rfl

theorem exec_ret_ok {s : State} {j : Nat} (h : s.sp.val = j + 1) (hj : j < 16) :
    exec .ret s = .next (State.setPc { s with sp := ⟨j, by omega⟩ } (s.stack[j] + 2#16)) := by
  have hpop : pop s = .ok (s.stack[j], { s with sp := ⟨j, by omega⟩ }) := by simp [pop, h]
  change execRet s = _
  rw [execRet, hpop]
  rfl

section
variable {s : State} {keys : Keys} {rnd : Byte} {rest : List HostCall}

/-- A step that runs a CALL with a free slot: the jump, and the CALL's address in the slot. -/
theorem step_call {nnn : Addr} (hs : s.status = .running) (hc : s.calls = .step keys rnd :: rest)
    (hsp : s.sp.val < 16) (hf : fetch16 s.pc.toNat s = .ok (encode (.call nnn))) :
    ∃ u, step s = .next u ∧ u.status = .running ∧ u.calls = rest ∧ u.sp.val = s.sp.val + 1 ∧
      u.stack[s.sp.val] = s.pc ∧ u.pc.toNat = nnn.toNat ∧ u.params = s.params ∧ u.V = s.V ∧
      u.mem = s.mem :=
  ⟨_, step_of_encode hs hc rfl hf (exec_call_ok (s := delivered s rest keys rnd) nnn hsp) hs, hs, rfl,
    rfl, Vector.getElem_set_self _, pcValue_targetOf _ _, rfl, rfl, rfl⟩

/-- A step that runs a RET with an occupied slot: back past the call site the slot holds. -/
theorem step_ret {j : Nat} (hs : s.status = .running) (hc : s.calls = .step keys rnd :: rest)
    (hsp : s.sp.val = j + 1) (hj : j < 16) (hf : fetch16 s.pc.toNat s = .ok (encode .ret)) :
    ∃ t, step s = .next t ∧ t.status = .running ∧ t.sp.val = j ∧
      t.pc = pcValue s.params (s.stack[j] + 2#16) ∧ t.params = s.params ∧ t.V = s.V ∧ t.mem = s.mem :=
  ⟨_, step_of_encode hs hc rfl hf (exec_ret_ok (s := delivered s rest keys rnd) hsp hj) hs, hs, rfl,
    rfl, rfl, rfl, rfl⟩

end

end Sys2Proof.Machine
end

section
/-! The statements of the family 30_encoding.md about the step (R79), the policy of pc (R80), the end of
an instruction (R81) and the unknown words (R75, R76). -/

namespace Sys2Proof.Machine

/-- Settles O15: a host call is a tick, which answers, or a step call, which answers on a Running VM. -/
theorem stepNeverRefuses : Obligations.StepNeverRefuses := by
  intro s
  obtain ⟨rest, hstep | ⟨keys, rnd, hstep⟩⟩ := step_cases s
  · exact .inl ⟨_, hstep⟩
  · cases hs : s.status with
    | running =>
      obtain ⟨t, ht⟩ := coreStep_exec_answers keys rnd
        (s := { s with calls := rest, event := none, draws := s.draws + 1 }) hs
      exact .inl ⟨t, hstep.trans ht⟩
    | faulted r => exact .inr ⟨r, rfl, hstep.trans (coreStep_faulted keys rnd hs)⟩

/-- Settles O24: `commit` takes the body's state, whose status is as before, or the fault alone. -/
theorem instructionCommitsOrFaults : Obligations.InstructionCommitsOrFaults := by
  intro i s
  obtain ⟨r, e, hr⟩ := exec_keepsStatus i s
  rcases commit_cases i s r with ⟨t, ht, h⟩ | ⟨k, -, h⟩
  · exact ⟨t, e.trans h, .inl (hr t ht)⟩
  · exact ⟨_, e.trans h, .inr ⟨k, takeFault_eq_faultedBy i k s⟩⟩

/-- Settles O35: the CALL's step leaves memory, so the second fetch reads the RET, and the RET's step reads
the slot the CALL wrote. -/
theorem callThenReturnComesBack : Obligations.CallThenReturnComesBack := by
  intro s nnn k1 k2 b1 b2 rest hs hc hsp hcall hret
  obtain ⟨u, hu, hus, huc, husp, hslot, hupc, hup, huV, hum⟩ := step_call hs hc hsp hcall
  have hfetch : fetch16 u.pc.toNat u = .ok (encode .ret) := by
    rw [hupc, fetch16_congr hum hup]
    exact hret
  obtain ⟨t, ht, hts, htsp, htpc, htp, htV, htm⟩ := step_ret hus huc husp hsp hfetch
  rw [hslot, hup] at htpc
  exact ⟨u, t, hu, ht, htpc, Fin.ext htsp, hts, htV.trans huV,
    sameMemory_of_eq (htm.trans hum) (htp.trans hup)⟩

/-- Settles O8. -/
theorem stepRunsTheDecodedInstruction : Obligations.StepRunsTheDecodedInstruction := by
  intro s keys rnd rest w i hs hc hf hd
  rw [step_running hs hc, fetchAndRun_of_decode (by simpa using hf) hd, endStep_eq_mapNext]

/-- Settles O11. -/
theorem unknownWordStep : Obligations.UnknownWordStep := by
  intro s keys rnd rest w hs hc hf hd
  rw [step_running hs hc, fetchAndRun_of_unknown (by simpa using hf) hd, endStep_next]
  exact congrArg Host.Outcome.next (latchKeys_running hs)

/-- Settles O12: the first byte of the fetch is out of range, or, at 0xFFF, the second. -/
theorem fetchPastTheTopFaults : Obligations.FetchPastTheTopFaults := by
  intro s keys rnd rest hs hc hpc
  have hf : fetch16 s.pc.toNat s =
      .error (.outOfRange (if s.pc.toNat > 0xFFF then s.pc.toNat else 0x1000)) := by
    split
    · next h => exact fetch16_error s h
    · next h =>
      have htop : s.pc.toNat = 0xFFF := by omega
      rw [htop]
      exact fetch16_top s
  rw [step_running hs hc, fetchAndRun_of_fault (by simpa using hf), endStep_next, latchKeys_faulted rfl]
  rfl

/-- Settles O14: with no call queued the free call is a step call, or a tick, which leaves a Faulted VM. -/
theorem faultedVmHasNoStep : Obligations.FaultedVmHasNoStep := by
  intro s r hs
  have hfault (u : State) (hu : u.status = .faulted r) (keys : Keys) (rnd : Byte) (rest : List HostCall)
      (hc : u.calls = .step keys rnd :: rest) : step u = .fault (.vmFaulted r) :=
    (step_step hc).trans (coreStep_faulted keys rnd hu)
  refine ⟨hfault s hs, fun hc => ?_⟩
  rw [step_nil hc]
  rcases freeCall_cases s.draws with e | e <;> rw [e]
  · right
    rw [step_tick_not_running (s := { s with calls := [.tick] }) rfl (by simp [hs]), hc]
  · exact .inl (hfault _ hs _ _ _ rfl)

/-- Settles O16, one policy after the other. -/
theorem pcWritesFollowThePolicy : Obligations.PcWritesFollowThePolicy := by
  intro p v
  unfold pcValue
  exact ⟨fun h => by rw [h], fun h => by rw [h, BitVec.toNat_umod]; rfl⟩

/-- Settles O58: SYS is `unknownWord` of its own word, 0nnn. -/
theorem sysIsAnUnknownOpcode : Obligations.SysIsAnUnknownOpcode := fun s nnn =>
  ⟨unknownWord (encode (.sys nnn)) s, encode (.sys nnn), rfl, (wordNnn_toNat 0x0#4 nnn).trans (by simp),
    rfl, rfl, fun _ => rfl, rfl⟩

end Sys2Proof.Machine
end

section
/-! SUPPORT. The control transfers (spec/40_control_flow.md R100 to R103) by what they answer, and the
step at a jump to itself (spec/70_reset_and_hazards.md R266). CALL and RET that answer stand above, with
the step call. -/

namespace Sys2Proof.Machine

/-! ## The jumps -/

theorem targetOf_toNat (nnn : Addr) : (targetOf nnn).toNat = nnn.toNat := by
  unfold targetOf
  bv_omega

theorem exec_jp (nnn : Addr) (s : State) : exec (.jp nnn) s = .next (s.setPc (targetOf nnn)) := rfl

theorem exec_jpV0_ok {s : State} (nnn : Addr) (h : s.CanReadV 0x0#4) :
    exec (.jpV0 nnn) s = .next (s.setPc (offsetTarget nnn (s.getV 0x0#4))) := by
  change execJpV0 nnn s = _
  rw [execJpV0, readV_ok h]
  rfl

/-- R103: the sum is not truncated. -/
theorem offsetTarget_toNat (nnn : Addr) (v : Byte) :
    (offsetTarget nnn v).toNat = nnn.toNat + v.toNat := by
  unfold offsetTarget
  bv_omega

/-! ## CALL and RET that raise -/

theorem exec_call_overflow {s : State} (nnn : Addr) (h : s.sp.val = 16) :
    exec (.call nnn) s = .next (faultedBy (.call nnn) .stackOverflow s) := by
  change execCall nnn s = _
  rw [execCall, push_error s.pc h]
  rfl

theorem exec_ret_underflow {s : State} (h : s.sp.val = 0) :
    exec .ret s = .next (faultedBy .ret .stackUnderflow s) := by
  have hpop : pop s = .error .stackUnderflow := by simp [pop, h]
  change execRet s = _
  rw [execRet, hpop]
  rfl

/-! ## A jump to itself -/

/-- An address the fetch reaches is the target of some jump. -/
theorem exists_targetOf_eq {v : Word} (h : v.toNat ≤ 0xFFE) : ∃ nnn, targetOf nnn = v :=
  ⟨v.setWidth 12, by unfold targetOf; bv_omega⟩

/-- The word of a jump is op = 1 over its target. -/
theorem encode_jp_eq_or (nnn : Addr) : encode (.jp nnn) = 0x1000#16 ||| targetOf nnn := by
  have happend : encode (.jp nnn) = (0x1#4 ++ nnn : BitVec (4 + 12)) := wordNnn_eq_append 0x1#4 nnn
  apply BitVec.eq_of_toNat_eq
  rw [happend, BitVec.toNat_append, BitVec.toNat_or, targetOf_toNat]
  rfl

/-- A state at a jump's target jumps to itself. -/
theorem setPc_targetOf_self {s : State} {nnn : Addr} (h : targetOf nnn = s.pc) :
    s.setPc (targetOf nnn) = s := by
  have hpc : pcValue s.params (targetOf nnn) = targetOf nnn :=
    BitVec.eq_of_toNat_eq ((pcValue_targetOf _ _).trans (targetOf_toNat nnn).symm)
  rw [State.setPc, hpc, h]

/-- A state whose run has ended normally is at the word of the jump to its own address. -/
theorem State.EndedNormally.exists_jump {s : State} (h : s.EndedNormally) :
    ∃ nnn, targetOf nnn = s.pc ∧ fetch16 s.pc.toNat s = .ok (encode (.jp nnn)) := by
  obtain ⟨-, hfetch⟩ := h
  obtain ⟨nnn, hpc⟩ := exists_targetOf_eq (fetch16_ok_iff.mp hfetch).1
  exact ⟨nnn, hpc, by rw [hfetch, encode_jp_eq_or, hpc]⟩

end Sys2Proof.Machine
end

section
/-! The statements of the family 40_control_flow.md: RET, the jumps, CALL, and the jump to itself. -/

namespace Sys2Proof.Machine

/-- Settles O59: the step runs the jump, which leaves the state it is given, and latches its keys; memory,
pc and the status are as before, so the next fetch reads the same jump. -/
theorem selfJumpStepsForEver : Obligations.SelfJumpStepsForEver := by
  intro s keys rnd rest hend hc
  obtain ⟨nnn, hpc, hjump⟩ := hend.exists_jump
  obtain ⟨hs, hfetch⟩ := hend
  have hexec : exec (.jp nnn) (delivered s rest keys rnd) = .next (delivered s rest keys rnd) := by
    rw [exec_jp, setPc_targetOf_self (s := delivered s rest keys rnd) hpc]
  exact ⟨_, step_of_encode hs hc rfl hjump hexec hs, rfl, hs, (fetch16_congr rfl rfl _).trans hfetch⟩

/-- Settles O32. -/
theorem retReturnsPastTheCallSite : Obligations.RetReturnsPastTheCallSite := by
  intro s
  have hsp := s.sp.isLt
  refine ⟨fun h => ?_, exec_ret_underflow⟩
  have htop : s.sp.val = (s.sp.val - 1) + 1 := by omega
  exact ⟨_, exec_ret_ok htop (by omega), htop.symm, rfl, fun _ => rfl, rfl⟩

/-- Settles O33: a target that is not reduced is the sum, whose wrap is that of the policy (R80). -/
theorem jumpsGoToTheirTarget : Obligations.JumpsGoToTheirTarget := by
  intro s nnn
  refine ⟨⟨_, exec_jp nnn s, pcValue_targetOf _ _, onlyPc_setPc s _⟩, fun h =>
    ⟨_, exec_jpV0_ok nnn h, onlyPc_setPc s _, ?_⟩⟩
  obtain ⟨hfault, hwrap⟩ := pcWritesFollowThePolicy s.params (offsetTarget nnn (s.getV 0x0#4))
  rw [State.setPc_pc, ← offsetTarget_toNat]
  exact ⟨fun hp => congrArg _ (hfault hp), hwrap⟩

/-- Settles O34. -/
theorem callPushesItsOwnAddress : Obligations.CallPushesItsOwnAddress := by
  intro s nnn
  exact ⟨fun h => ⟨_, exec_call_ok nnn h, rfl, Vector.getElem_set_self _,
    fun _ _ hne => Vector.getElem_set_ne h _ hne.symm, pcValue_targetOf _ _, fun _ => rfl, rfl⟩,
    exec_call_overflow nnn⟩

end Sys2Proof.Machine
end

section
/-! SUPPORT. The skips on register values (spec/41_skips.md R120 to R123) by what they answer, and what
an instruction that answers a skip leaves (R124). -/

namespace Sys2Proof.Machine

theorem exec_seVxKk_ok {s : State} {x : Nibble} (kk : Byte) (h : s.CanReadV x) :
    exec (.seVxKk x kk) s = .next (s.skipIf (decide (s.getV x = kk))) := by
  change execSeVxKk x kk s = _
  rw [execSeVxKk, readV_ok h]
  rfl

theorem exec_sneVxKk_ok {s : State} {x : Nibble} (kk : Byte) (h : s.CanReadV x) :
    exec (.sneVxKk x kk) s = .next (s.skipIf (decide (s.getV x ≠ kk))) := by
  change execSneVxKk x kk s = _
  rw [execSneVxKk, readV_ok h]
  rfl

theorem exec_seVxVy_ok {s : State} {x y : Nibble} (hx : s.CanReadV x) (hy : s.CanReadV y) :
    exec (.seVxVy x y) s = .next (s.skipIf (decide (s.getV x = s.getV y))) := by
  change execSeVxVy x y s = _
  rw [execSeVxVy, readXY_ok hx hy]
  rfl

theorem exec_sneVxVy_ok {s : State} {x y : Nibble} (hx : s.CanReadV x) (hy : s.CanReadV y) :
    exec (.sneVxVy x y) s = .next (s.skipIf (decide (s.getV x ≠ s.getV y))) := by
  change execSneVxVy x y s = _
  rw [execSneVxVy, readXY_ok hx hy]
  rfl

section
variable {i : Instr} {s : State} {p : Prop} [Decidable p]

/-- An instruction that skips when `p` holds writes pc alone: pc + 4 when it holds, else pc + 2. -/
theorem skips_when (h : exec i s = .next (s.skipIf (decide p))) :
    ∃ t, exec i s = .next t ∧ OnlyPc s t ∧
      t.pc = pcValue s.params (if p then s.pc + 4#16 else s.pc + 2#16) :=
  ⟨_, h, onlyPc_skipIf s _, by simp only [State.skipIf_pc, decide_eq_true_eq]⟩

/-- An instruction that skips when `p` fails: pc + 2 when it holds, else pc + 4. -/
theorem skips_unless (h : exec i s = .next (s.skipIf (decide (¬ p)))) :
    ∃ t, exec i s = .next t ∧ OnlyPc s t ∧
      t.pc = pcValue s.params (if p then s.pc + 2#16 else s.pc + 4#16) := by
  rw [← ite_not]
  exact skips_when h

end

end Sys2Proof.Machine
end

section
/-! The statements of the family 41_skips.md: the skips on a byte and on two registers. -/

namespace Sys2Proof.Machine

/-- Settles O36. -/
theorem byteSkips : Obligations.ByteSkips := fun _ _ kk h =>
  ⟨skips_when (exec_seVxKk_ok kk h), skips_unless (exec_sneVxKk_ok kk h)⟩

/-- Settles O37. -/
theorem registerSkips : Obligations.RegisterSkips := fun _ _ _ hx hy =>
  ⟨skips_when (exec_seVxVy_ok hx hy), skips_unless (exec_sneVxVy_ok hx hy)⟩

end Sys2Proof.Machine
end

section
/-! SUPPORT. The register loads and arithmetic (spec/42_register_alu.md R140 to R151) by what they
answer, and their flags as the spec writes them. -/

namespace Sys2Proof.Machine

/-! ## What each instruction answers -/

/-- A body whose operands are read and whose rest answers commits what the rest answers. -/
theorem commit_bind_ok {α : Type} {i : Instr} {s t : State} {r : Except FaultKind α} {a : α}
    {f : α → Except FaultKind State} (hr : r = .ok a) (hf : f a = .ok t) :
    commit i s (r >>= f) = .next t := by
  rw [hr, except_bind_ok, hf, commit_ok]

/-- SHIFT_SOURCE names the register the shifts read. -/
theorem shiftOperand_eq (x y : Nibble) (s : State) :
    shiftOperand x y s = readV (match s.params.shiftSource with | .vx => x | .vy => y) s := by
  unfold shiftOperand
  cases s.params.shiftSource <;> rfl

section
variable {s : State} {x y : Nibble}

theorem exec_ldVxKk (s : State) (x : Nibble) (kk : Byte) :
    exec (.ldVxKk x kk) s = .next (s.setV x kk).advance := rfl

theorem exec_rnd (s : State) (x : Nibble) (kk : Byte) :
    exec (.rnd x kk) s = .next (s.setV x (s.rnd &&& kk)).advance := rfl

theorem exec_addVxKk_ok (kk : Byte) (hx : s.CanReadV x) :
    exec (.addVxKk x kk) s = .next (s.setV x (s.getV x + kk)).advance :=
  commit_bind_ok (readV_ok hx) rfl

theorem exec_ldVxVy_ok (x : Nibble) (hy : s.CanReadV y) :
    exec (.ldVxVy x y) s = .next (s.setV x (s.getV y)).advance :=
  commit_bind_ok (readV_ok hy) rfl

theorem exec_orVxVy_ok (hx : s.CanReadV x) (hy : s.CanReadV y) :
    exec (.orVxVy x y) s = .next (s.setV x (s.getV x ||| s.getV y)).advance :=
  commit_bind_ok (readXY_ok hx hy) rfl

theorem exec_andVxVy_ok (hx : s.CanReadV x) (hy : s.CanReadV y) :
    exec (.andVxVy x y) s = .next (s.setV x (s.getV x &&& s.getV y)).advance :=
  commit_bind_ok (readXY_ok hx hy) rfl

theorem exec_xorVxVy_ok (hx : s.CanReadV x) (hy : s.CanReadV y) :
    exec (.xorVxVy x y) s = .next (s.setV x (s.getV x ^^^ s.getV y)).advance :=
  commit_bind_ok (readXY_ok hx hy) rfl

theorem exec_addVxVy_ok (hx : s.CanReadV x) (hy : s.CanReadV y) :
    exec (.addVxVy x y) s = .next ((s.setV x (s.getV x + s.getV y)).setV vf
      (carryFlag (s.getV x) (s.getV y))).advance :=
  commit_bind_ok (readXY_ok hx hy) rfl

theorem exec_sub_ok (hx : s.CanReadV x) (hy : s.CanReadV y) :
    exec (.sub x y) s = .next ((s.setV x (s.getV x - s.getV y)).setV vf
      (noBorrowFlag (s.getV x) (s.getV y))).advance :=
  commit_bind_ok (readXY_ok hx hy) rfl

theorem exec_subn_ok (hx : s.CanReadV x) (hy : s.CanReadV y) :
    exec (.subn x y) s = .next ((s.setV x (s.getV y - s.getV x)).setV vf
      (noBorrowFlag (s.getV y) (s.getV x))).advance :=
  commit_bind_ok (readXY_ok hx hy) rfl

theorem exec_shr_ok {a : Byte} (h : shiftOperand x y s = .ok a) :
    exec (.shr x y) s = .next ((s.setV x (a >>> 1)).setV vf (lowBitFlag a)).advance :=
  commit_bind_ok h rfl

theorem exec_shl_ok {a : Byte} (h : shiftOperand x y s = .ok a) :
    exec (.shl x y) s = .next ((s.setV x (a <<< 1)).setV vf (highBitFlag a)).advance :=
  commit_bind_ok h rfl

end

/-! ## A result alone, and a result with its flag -/

/-- An instruction that writes one result leaves in V[x] the bits of that result. -/
theorem leaves_bits {f : Nat → Bool} {i : Instr} {s : State} {x : Nibble} {r : Byte}
    (h : exec i s = .next (s.setV x r).advance) (hbits : ∀ b, r.getLsbD b = f b) :
    ∃ t, exec i s = .next t ∧ (t.regV x).written = true ∧ OnlyRegsAndPc [x] s t ∧
      t.pc = pcValue s.params (s.pc + 2#16) ∧ ∀ b < 8, (t.getV x).getLsbD b = f b := by
  refine ⟨_, h, ?_, onlyRegsAndPc_setV_advance s x r, rfl, fun b _ => ?_⟩
  · rw [State.regV_advance, State.regV_setV_same, Reg.put_written]
  · rw [State.getV_advance, State.getV_setV_same, hbits b]

/-- An instruction that writes a result and then a flag `c` leaves the flag in VF, and the result in
V[x] unless x = F (R21); `f` reads the result as the number the rule speaks of. -/
theorem leaves_result_and_flag {α : Type} {f : Byte → α} {n : α} {i : Instr} {s : State} {x : Nibble}
    {r b c : Byte} (h : exec i s = .next ((s.setV x r).setV vf b).advance) (hflag : b = c)
    (hresult : f r = n) :
    ∃ t, exec i s = .next t ∧ OnlyRegsAndPc [x, vf] s t ∧ t.pc = pcValue s.params (s.pc + 2#16) ∧
      t.regV vf = Reg.put c ∧ (x ≠ vf → (t.regV x).written = true ∧ f (t.getV x) = n) := by
  refine ⟨_, h, onlyRegsAndPc_setV_setV_advance s x vf r b, rfl, ?_, fun hx => ?_⟩
  · rw [State.regV_advance, State.regV_setV_same, hflag]
  · simp [State.getV_setV, State.regV_setV, hx, hresult]

/-! ## The flags -/

theorem carryFlag_eq (a b : Byte) :
    carryFlag a b = if a.toNat + b.toNat > 255 then 1#8 else 0#8 := by
  simp only [carryFlag, flagByte, decide_eq_true_eq]

theorem noBorrowFlag_eq (a b : Byte) :
    noBorrowFlag a b = if a.toNat ≥ b.toNat then 1#8 else 0#8 := by
  simp only [noBorrowFlag, flagByte, decide_eq_true_eq]

/-- The flag of one bit is that bit as a number. -/
theorem flagByte_getLsbD (a : Byte) (k : Nat) :
    flagByte (a.getLsbD k) = BitVec.ofNat 8 (a.toNat / 2 ^ k % 2) := by
  rw [BitVec.getLsbD, Nat.testBit_eq_decide_div_mod_eq, flagByte]
  rcases Nat.mod_two_eq_zero_or_one (a.toNat / 2 ^ k) with h | h <;> rw [h] <;> rfl

theorem lowBitFlag_eq (a : Byte) : lowBitFlag a = BitVec.ofNat 8 (a.toNat % 2) := by
  rw [lowBitFlag, flagByte_getLsbD, Nat.pow_zero, Nat.div_one]

theorem highBitFlag_eq (a : Byte) : highBitFlag a = BitVec.ofNat 8 (a.toNat / 128) := by
  have hbit : a.toNat / 128 < 2 := by omega
  rw [highBitFlag, flagByte_getLsbD]
  exact congrArg (BitVec.ofNat 8) (Nat.mod_eq_of_lt hbit)

/-! ## The differences and the shifts as numbers -/

/-- The 8-bit difference is the integer one mod 256. -/
theorem byte_sub_toNat_cast (a b : Byte) : ((a - b).toNat : Int) = (a.toNat - b.toNat : Int) % 256 := by
  rw [BitVec.toNat_sub]
  omega

theorem byte_shiftRight_one_toNat (a : Byte) : (a >>> 1).toNat = a.toNat / 2 := by
  rw [BitVec.toNat_ushiftRight, Nat.shiftRight_eq_div_pow, Nat.pow_one]

theorem byte_shiftLeft_one_toNat (a : Byte) : (a <<< 1).toNat = a.toNat * 2 % 256 := by
  rw [BitVec.toNat_shiftLeft, Nat.shiftLeft_eq, Nat.pow_one]

end Sys2Proof.Machine
end

section
/-! The statements of the family 42_register_alu.md: the loads, the logic, the sums, the differences, the
shifts and the random byte. -/

namespace Sys2Proof.Machine

/-- Settles O38. -/
theorem registerLoads : Obligations.RegisterLoads := fun s x _ kk =>
  ⟨⟨_, exec_ldVxKk s x kk, State.regV_setV_same s x _, onlyRegsAndPc_setV_advance s x _, rfl⟩,
    fun hy => ⟨_, exec_ldVxVy_ok x hy, State.regV_setV_same s x _, onlyRegsAndPc_setV_advance s x _,
      rfl⟩⟩

/-- Settles O39. -/
theorem addImmediateSetsNoFlag : Obligations.AddImmediateSetsNoFlag := by
  intro s x kk hx
  refine ⟨_, exec_addVxKk_ok kk hx, ?_, ?_, onlyRegsAndPc_setV_advance s x _, rfl⟩
  · rw [State.regV_advance, State.regV_setV_same, Reg.put_written]
  · rw [State.getV_advance, State.getV_setV_same, BitVec.toNat_add]

/-- Settles O40. -/
theorem logicWritesOnlyItsRegister : Obligations.LogicWritesOnlyItsRegister := fun _ _ _ hx hy =>
  ⟨leaves_bits (exec_orVxVy_ok hx hy) fun _ => BitVec.getLsbD_or,
    leaves_bits (exec_andVxVy_ok hx hy) fun _ => BitVec.getLsbD_and,
    leaves_bits (exec_xorVxVy_ok hx hy) fun _ => BitVec.getLsbD_xor⟩

/-- Settles O41. -/
theorem addReportsTheCarry : Obligations.AddReportsTheCarry := fun _ _ _ hx hy =>
  leaves_result_and_flag (exec_addVxVy_ok hx hy) (carryFlag_eq _ _) (BitVec.toNat_add _ _)

/-- Settles O42: both differences are integer ones mod 256, and their flags compare the same operands. -/
theorem subtractionsReportNoBorrow : Obligations.SubtractionsReportNoBorrow := fun _ _ _ hx hy =>
  ⟨leaves_result_and_flag (f := fun v => (v.toNat : Int)) (exec_sub_ok hx hy) (noBorrowFlag_eq _ _)
      (byte_sub_toNat_cast _ _),
    leaves_result_and_flag (f := fun v => (v.toNat : Int)) (exec_subn_ok hx hy) (noBorrowFlag_eq _ _)
      (byte_sub_toNat_cast _ _)⟩

/-- Settles O43: the operand is the register that SHIFT_SOURCE names. -/
theorem shiftsReportTheBitShiftedOut : Obligations.ShiftsReportTheBitShiftedOut := by
  rintro s x y src rfl hread
  have hoperand := (shiftOperand_eq x y s).trans (readV_ok hread)
  exact ⟨leaves_result_and_flag (exec_shr_ok hoperand) (lowBitFlag_eq _) (byte_shiftRight_one_toNat _),
    leaves_result_and_flag (exec_shl_ok hoperand) (highBitFlag_eq _) (byte_shiftLeft_one_toNat _)⟩

/-- Settles O44. -/
theorem randomByteIsMasked : Obligations.RandomByteIsMasked := by
  intro s x kk
  obtain ⟨t, ht, hwritten, hframe, hpc, hbits⟩ :=
    leaves_bits (exec_rnd s x kk) fun _ => BitVec.getLsbD_and
  exact ⟨t, ht, hframe, hwritten, hpc, hbits⟩

end Sys2Proof.Machine
end

section
/-! SUPPORT. The address register and the memory transfers (spec/43_index_memory.md R170 to R175) by what
they answer, and the values they leave as the spec writes them. An Fx55 that answers stands above, with
the store of registers. -/

namespace Sys2Proof.Machine

/-! ## The values -/

theorem indexSum_toNat (a : Addr) (v : Byte) : (indexSum a v).toNat = (a.toNat + v.toNat) % 4096 := by
  simp [indexSum]

theorem indexOverflowFlag_eq (a : Addr) (v : Byte) :
    indexOverflowFlag a v = if a.toNat + v.toNat > 0xFFF then 1#8 else 0#8 := by
  simp only [indexOverflowFlag, flagByte, decide_eq_true_eq]

/-- The flag step of Fx1E reaches V alone. -/
theorem State.indexFlag_eq (s : State) (a : Addr) (v : Byte) :
    s.indexFlag a v = { s with V := (s.indexFlag a v).V } := by
  unfold State.indexFlag
  split <;> rfl

theorem byte_and_low_nibble_toNat (v : Byte) : (v &&& 0x0F#8).toNat = v.toNat % 16 := by
  rw [BitVec.toNat_and]
  exact Nat.and_two_pow_sub_one_eq_mod v.toNat 4

/-- R172: a glyph of the font of a legal base has an address that is not truncated. -/
theorem fontAddress_toNat {p : Params} (h : p.Legal) (v : Byte) :
    (fontAddress p v).toNat = p.fontBase.toNat + 5 * (v.toNat % 16) := by
  rw [fontAddress, byte_and_low_nibble_toNat, BitVec.toNat_ofNat]
  omega

@[simp] theorem decimalDigits_length (v : Byte) : (decimalDigits v).length = 3 := rfl

/-- R173: the digits of a byte as numbers. -/
theorem decimalDigits_toNat (v : Byte) :
    (decimalDigits v)[0].toNat = v.toNat / 100 ∧ (decimalDigits v)[1].toNat = v.toNat / 10 % 10 ∧
      (decimalDigits v)[2].toNat = v.toNat % 10 := by
  have hv := v.isLt
  simp only [decimalDigits, List.getElem_cons_zero, List.getElem_cons_succ, BitVec.toNat_ofNat]
  omega

/-- R174, R175: I at the end of a transfer whose block operation `u` has left I. -/
theorem transfer_index {s u : State} (a : Addr) (x : Nibble) (hp : u.params = s.params) (hI : u.I = s.I) :
    (s.params.ldstIncrement = .none → (u.afterTransfer a x).advance.I = s.I) ∧
    (s.params.ldstIncrement = .xPlusOne → (u.afterTransfer a x).advance.I.written = true ∧
      (u.afterTransfer a x).advance.I.val.toNat = (a.toNat + x.toNat + 1) % 4096) := by
  constructor <;> intro h <;> simp [hp, hI, h]

/-! ## What each instruction answers -/

/-- A body whose operands are read and whose rest raises takes the fault of the rest. -/
theorem commit_bind_error {α : Type} {i : Instr} {s : State} {k : FaultKind} {r : Except FaultKind α}
    {a : α} {f : α → Except FaultKind State} (hr : r = .ok a) (hf : f a = .error k) :
    commit i s (r >>= f) = .next (faultedBy i k s) := by
  rw [hr, except_bind_ok, hf, commit_error, takeFault_eq_faultedBy]

section
variable {s : State} {x : Nibble}

theorem exec_ldINnn (s : State) (nnn : Addr) : exec (.ldINnn nnn) s = .next (s.setI nnn).advance := rfl

theorem exec_addIVx_ok (hI : s.CanReadI) (hx : s.CanReadV x) :
    exec (.addIVx x) s = .next
      ((s.setI (indexSum s.I.val (s.getV x))).indexFlag s.I.val (s.getV x)).advance :=
  commit_bind_ok (readI_ok hI) (by rw [readV_ok hx]; rfl)

theorem exec_ldFVx_ok (hx : s.CanReadV x) :
    exec (.ldFVx x) s = .next (s.setI (fontAddress s.params (s.getV x))).advance :=
  commit_bind_ok (readV_ok hx) rfl

/-- An Fx33 whose digits stay inside memory answers the state their stores leave, with pc moved on. -/
theorem exec_ldBVx_ok (hx : s.CanReadV x) (hI : s.CanReadI) (h : s.I.val.toNat < 0xFFE) :
    ∃ u, exec (.ldBVx x) s = .next u.advance ∧ StoredAt s u s.I.val.toNat 3 ∧
      ∀ k (hk : k < 3), u.byteAt (s.I.val.toNat + k) = (decimalDigits (s.getV x))[k] := by
  obtain ⟨u, hu, hstored, hbytes⟩ :=
    writeBytes_ok (decimalDigits (s.getV x)) s.I.val.toNat s (.inr (by rw [decimalDigits_length]; omega))
  exact ⟨u, commit_bind_ok (readV_ok hx) (by rw [readI_ok hI, except_bind_ok, hu]; rfl), hstored, hbytes⟩

theorem exec_ldBVx_outOfRange (hx : s.CanReadV x) (hI : s.CanReadI) (h : s.I.val.toNat ≥ 0xFFE) :
    exec (.ldBVx x) s = .next (faultedBy (.ldBVx x) (.outOfRange 0x1000) s) := by
  have hwrite : writeBytes s.I.val.toNat (decimalDigits (s.getV x)) s = .error (.outOfRange 0x1000) :=
    writeBytes_error _ _ s (by omega) (List.cons_ne_nil _ _) (by rw [decimalDigits_length]; omega)
  exact commit_bind_error (readV_ok hx) (by rw [readI_ok hI, except_bind_ok, hwrite]; rfl)

/-- An Fx55 whose stores reach 0x1000 raises there when the registers up to that store can be read. -/
theorem exec_ldMemVx_outOfRange (hI : s.CanReadI)
    (hV : ∀ r, r ≤ x → s.I.val.toNat + r.toNat ≤ 0x1000 → s.CanReadV r)
    (h : s.I.val.toNat + x.toNat > 0xFFF) :
    exec (.ldMemVx x) s = .next (faultedBy (.ldMemVx x) (.outOfRange 0x1000) s) := by
  have hread (j : Nat) (_ : 0 ≤ j) (hj : j < 0 + (x.toNat + 1)) (ha : s.I.val.toNat + j ≤ 0x1000) :
      s.CanReadV (BitVec.ofNat 4 j) := by
    have hnat : (BitVec.ofNat 4 j).toNat = j := Nat.mod_eq_of_lt (by omega)
    exact hV _ (by rw [BitVec.le_def]; omega) (by omega)
  have hstore := storeRegs_error s.I.val.toNat (x.toNat + 1) 0 s (by omega) (by omega) (by omega)
    (by omega) hread
  exact commit_bind_error (readI_ok hI) (by rw [hstore]; rfl)

/-- An Fx65 whose loads stay inside memory answers the state they leave, with I and pc moved on. -/
theorem exec_ldVxMem_ok (hI : s.CanReadI) (h : s.I.val.toNat + x.toNat ≤ 0xFFF) :
    ∃ u : State, exec (.ldVxMem x) s = .next (u.afterTransfer s.I.val x).advance ∧ u = { s with V := u.V } ∧
      (∀ r, r ≤ x → u.regV r = Reg.put (s.byteAt (s.I.val.toNat + r.toNat))) ∧
      ∀ r, x < r → u.regV r = s.regV r := by
  obtain ⟨u, hu, hrest, hloaded, hkept⟩ :=
    loadRegs_ok s.I.val.toNat (x.toNat + 1) 0 s (by omega) (by omega)
  refine ⟨u, commit_bind_ok (readI_ok hI) (by rw [hu]; rfl), hrest, fun r hr => ?_, fun r hr => ?_⟩
  · simpa using hloaded r.toNat (Nat.zero_le _) (by rw [BitVec.le_def] at hr; omega)
  · simpa using hkept r.toNat r.isLt (.inr (by rw [BitVec.lt_def] at hr; omega))

theorem exec_ldVxMem_outOfRange (hI : s.CanReadI) (h : s.I.val.toNat + x.toNat > 0xFFF) :
    exec (.ldVxMem x) s = .next (faultedBy (.ldVxMem x) (.outOfRange 0x1000) s) := by
  have hload := loadRegs_error s.I.val.toNat (x.toNat + 1) 0 s (by omega) (by omega) (by omega)
  exact commit_bind_error (readI_ok hI) (by rw [hload]; rfl)

end

end Sys2Proof.Machine
end

section
/-! The statements of the family 43_index_memory.md: the address register, the font address, the decimal
digits and the transfers between registers and memory. -/

namespace Sys2Proof.Machine

/-- Settles O48: the block write stores the digits and leaves all else, or raises at 0x1000. -/
theorem decimalDigitsAreStored : Obligations.DecimalDigitsAreStored := by
  intro s x hx hI
  refine ⟨fun h => ?_, exec_ldBVx_outOfRange hx hI⟩
  obtain ⟨u, hu, hstored, hbytes⟩ := exec_ldBVx_ok hx hI h
  obtain ⟨hhundreds, htens, hones⟩ := decimalDigits_toNat (s.getV x)
  rw [← hbytes 0 (by omega)] at hhundreds
  rw [← hbytes 1 (by omega)] at htens
  rw [← hbytes 2 (by omega)] at hones
  exact ⟨_, hu, hhundreds, htens, hones,
    hstored.outside, by rw [hstored.rest]; rfl, by rw [hstored.rest]; rfl⟩

/-- Settles O49. -/
theorem registersAreStored : Obligations.RegistersAreStored := by
  intro s x hI
  refine ⟨fun hV h => ?_, exec_ldMemVx_outOfRange hI⟩
  obtain ⟨u, hu, hstored, hbytes⟩ := exec_ldMemVx_ok hI hV h
  refine ⟨_, hu, fun r hr => ?_, hstored.outside, by rw [hstored.rest]; rfl, by rw [hstored.rest]; rfl,
    transfer_index _ x (by rw [hstored.rest]) (by rw [hstored.rest])⟩
  simpa using hbytes r.toNat (BitVec.le_def.mp hr)

/-- Settles O50. -/
theorem registersAreLoaded : Obligations.RegistersAreLoaded := by
  intro s x hI
  refine ⟨fun h => ?_, exec_ldVxMem_outOfRange hI⟩
  obtain ⟨u, hu, hrest, hloaded, hkept⟩ := exec_ldVxMem_ok hI h
  exact ⟨_, hu, hloaded, hkept, fun _ => by rw [hrest]; rfl, by rw [hrest]; rfl, by rw [hrest]; rfl,
    transfer_index _ x (by rw [hrest]) (by rw [hrest])⟩

/-- Settles O45. -/
theorem loadIndex : Obligations.LoadIndex := fun s nnn =>
  ⟨_, exec_ldINnn s nnn, rfl, fun _ => rfl, rfl, rfl⟩

/-- Settles O46: the flag step comes last and reaches VF alone, so V is as before under
FX1E_FLAG = none. -/
theorem addToIndex : Obligations.AddToIndex := by
  intro s x hI hx
  refine ⟨_, exec_addIVx_ok hI hx, fun r hr => ?_, fun _ => by rw [State.indexFlag_eq]; rfl,
    by rw [State.indexFlag_eq]; rfl, by rw [State.indexFlag_eq]; rfl, by rw [State.indexFlag_eq]; rfl,
    ?_, fun hf => ?_, fun hf => ?_⟩
  · simp [State.indexFlag_regV, List.mem_singleton.not.mp hr]
  · simp [indexSum_toNat]
  · simp [State.indexFlag_regV, hf, indexOverflowFlag_eq]
  · simp [State.indexFlag_regV, hf]

/-- Settles O47: the last glyph of a legal font begins at FONT_BASE + 75. -/
theorem fontAddressOfADigit : Obligations.FontAddressOfADigit := by
  intro s x hlegal hx
  have haddr := fontAddress_toNat hlegal (s.getV x)
  have hregion : (fontAddress s.params (s.getV x)).toNat ≤ 0x1FF := by omega
  exact ⟨_, exec_ldFVx_ok hx, rfl, haddr, hregion, fun _ => rfl, rfl, rfl⟩

end Sys2Proof.Machine
end

section
/-! SUPPORT. What a draw does to the framebuffer (spec/44_display.md R192): a set of cells toggled, each
once, which composes along the bits of a row and the rows of a sprite. -/

namespace Sys2Proof.Machine

/-! ## Toggling a set of cells -/

/-- The canvas `e` is `d` with exactly the cells of `P` toggled, each once, and a hit noted when one of
them was on. -/
structure Toggles (P : Nat → Nat → Prop) (d e : Canvas) : Prop where
  inside : ∀ r c, P r c → r < 32 ∧ c < 64
  flipped : ∀ r c, P r c → pixel e.grid r c = !pixel d.grid r c
  kept : ∀ r c, r < 32 → c < 64 → ¬ P r c → pixel e.grid r c = pixel d.grid r c
  hit : e.hit = true ↔ d.hit = true ∨ ∃ r c, P r c ∧ pixel d.grid r c = true

theorem Toggles.congr {P Q : Nat → Nat → Prop} {d e : Canvas} (h : Toggles P d e)
    (hPQ : ∀ r c, P r c ↔ Q r c) : Toggles Q d e := by
  have hPQ : P = Q := funext fun r => funext fun c => propext (hPQ r c)
  exact hPQ ▸ h

/-- No cell toggled. -/
theorem Toggles.none {P : Nat → Nat → Prop} (d : Canvas) (h : ∀ r c, ¬ P r c) : Toggles P d d where
  inside r c hP := absurd hP (h r c)
  flipped r c hP := absurd hP (h r c)
  kept _ _ _ _ _ := rfl
  hit := by simp [h]

/-- Toggling one set of cells and then another toggles their union when no cell is in both. -/
theorem Toggles.trans {P Q : Nat → Nat → Prop} {d e f : Canvas} (h : Toggles P d e) (h' : Toggles Q e f)
    (hdisj : ∀ r c, P r c → ¬ Q r c) : Toggles (fun r c => P r c ∨ Q r c) d f := by
  have hQ (r c : Nat) (hq : Q r c) : pixel e.grid r c = pixel d.grid r c :=
    h.kept r c (h'.inside r c hq).1 (h'.inside r c hq).2 fun hp => hdisj r c hp hq
  constructor
  case inside => exact fun r c hPQ => hPQ.elim (h.inside r c) (h'.inside r c)
  case flipped =>
    rintro r c (hp | hq)
    · obtain ⟨hr, hc⟩ := h.inside r c hp
      rw [h'.kept r c hr hc (hdisj r c hp), h.flipped r c hp]
    · rw [h'.flipped r c hq, hQ r c hq]
  case kept =>
    intro r c hr hc hPQ
    rw [not_or] at hPQ
    rw [h'.kept r c hr hc hPQ.2, h.kept r c hr hc hPQ.1]
  case hit =>
    have hon : (∃ r c, Q r c ∧ pixel e.grid r c = true) ↔ ∃ r c, Q r c ∧ pixel d.grid r c = true :=
      exists₂_congr fun r c => and_congr_right fun hq => by rw [hQ r c hq]
    rw [h'.hit, h.hit, hon, or_assoc]
    simp only [or_and_right, exists_or]

/-! ## One cell, a row, a sprite -/

/-- One toggle reaches the cell its coordinates wrap to. -/
theorem toggles_togglePixel (row col : Nat) (d : Canvas) :
    Toggles (fun r c => r = row % 32 ∧ c = col % 64) d (togglePixel row col d) where
  inside r c h := by omega
  flipped r c := by
    rintro ⟨rfl, rfl⟩
    simp [pixel_togglePixel]
  kept r c hr hc h := by
    rw [pixel_togglePixel, if_neg (by rwa [Nat.mod_eq_of_lt hr, Nat.mod_eq_of_lt hc])]
  hit := by simp

/-- Some set bit among the low `n` of a sprite byte drawn at (row, col) maps to the cell (r, c): bit `k`
is column offset `7 - k`. -/
def BitsCover (row col : Nat) (b : Byte) (n r c : Nat) : Prop :=
  ∃ k < n, b.getLsbD k = true ∧ r = row % 32 ∧ c = (col + (7 - k)) % 64

theorem bitsCover_succ {row col : Nat} {b : Byte} {n r c : Nat} :
    BitsCover row col b (n + 1) r c ↔
      (b.getLsbD n = true ∧ r = row % 32 ∧ c = (col + (7 - n)) % 64) ∨ BitsCover row col b n r c := by
  unfold BitsCover
  rw [Nat.exists_lt_succ_right, or_comm]

theorem toggles_drawBits (row col : Nat) (b : Byte) {n : Nat} (hn : n ≤ 8) (d : Canvas) :
    Toggles (BitsCover row col b n) d (drawBits row col b n d) := by
  induction n generalizing d with
  | zero => exact .none d fun r c ⟨_, hk, _⟩ => absurd hk (Nat.not_lt_zero _)
  | succ n ih =>
    have hbit : Toggles (fun r c => b.getLsbD n = true ∧ r = row % 32 ∧ c = (col + (7 - n)) % 64) d
        (if b.getLsbD n then togglePixel row (col + (7 - n)) d else d) := by
      split
      · next hb => exact (toggles_togglePixel row _ d).congr fun _ _ => (and_iff_right hb).symm
      · next hb => exact .none d fun _ _ h => hb h.1
    refine (hbit.trans (ih (by omega) _) ?_).congr fun _ _ => bitsCover_succ.symm
    rintro r c ⟨-, -, hc⟩ ⟨k, hk, -, -, hc'⟩
    omega

/-- A sprite covers what its top row does, and what its other rows do one row below. -/
theorem spriteCovers_cons {row col : Nat} {b : Byte} {bs : List Byte} {r c : Nat} :
    SpriteCovers row col (b :: bs) r c ↔
      BitsCover row col b 8 r c ∨ SpriteCovers (row + 1) col bs r c := by
  constructor
  · rintro ⟨dr, dc, hdr, hdc, hb, hr, hc⟩
    cases dr with
    | zero => exact .inl ⟨7 - dc, by omega, hb, hr, by omega⟩
    | succ dr => exact .inr ⟨dr, dc, Nat.lt_of_succ_lt_succ hdr, hdc, hb, by omega, hc⟩
  · rintro (⟨k, hk, hb, hr, hc⟩ | ⟨dr, dc, hdr, hdc, hb, hr, hc⟩)
    · refine ⟨0, 7 - k, Nat.succ_pos _, by omega, ?_, hr, hc⟩
      rwa [Nat.sub_sub_self (Nat.le_of_lt_succ hk)]
    · exact ⟨dr + 1, dc, Nat.succ_lt_succ hdr, hdc, hb, by omega, hc⟩

/-- At most 32 rows do not meet each other, so no cell is toggled twice. -/
theorem toggles_drawRows (row col : Nat) {bytes : List Byte} (hlen : bytes.length ≤ 32) (d : Canvas) :
    Toggles (SpriteCovers row col bytes) d (drawRows row col bytes d) := by
  induction bytes generalizing row d with
  | nil => exact .none d fun r c ⟨_, _, hdr, _⟩ => absurd hdr (Nat.not_lt_zero _)
  | cons b bs ih =>
    rw [List.length_cons] at hlen
    refine ((toggles_drawBits row col b (Nat.le_refl 8) d).trans (ih (row + 1) (by omega) _) ?_).congr
      fun _ _ => spriteCovers_cons.symm
    rintro r c ⟨-, -, -, hr, -⟩ ⟨dr, -, hdr, -, -, hr', -⟩
    omega

theorem toggles_draw (row col : Nat) {bytes : List Byte} (hlen : bytes.length ≤ 15) (g : Grid) :
    Toggles (SpriteCovers row col bytes) { grid := g, hit := false } (draw row col bytes g) :=
  toggles_drawRows row col (by omega) _

/-- A draw reports a collision exactly when some covered cell was on. -/
theorem draw_hit_iff (row col : Nat) {bytes : List Byte} (hlen : bytes.length ≤ 15) (g : Grid) :
    (draw row col bytes g).hit = true ↔ ∃ r c, SpriteCovers row col bytes r c ∧ pixel g r c = true := by
  simpa using (toggles_draw row col hlen g).hit

/-- The second of two draws toggles back what the first toggled. -/
theorem draw_draw_grid (row col : Nat) {bytes : List Byte} (hlen : bytes.length ≤ 15) (g : Grid) :
    (draw row col bytes (draw row col bytes g).grid).grid = g := by
  have hfirst := toggles_draw row col hlen g
  have hsecond := toggles_draw row col hlen (draw row col bytes g).grid
  refine grid_ext fun r c hr hc => ?_
  by_cases h : SpriteCovers row col bytes r c
  · rw [hsecond.flipped r c h, hfirst.flipped r c h, Bool.not_not]
  · rw [hsecond.kept r c hr hc h, hfirst.kept r c hr hc h]

/-! ## What each instruction answers -/

theorem exec_cls (s : State) : exec .cls s = .next (s.setFb blankGrid).advance := rfl

section
variable {s : State} {x y n : Nibble}

/-- A Dxyn whose sprite stays inside memory answers the draw and its flag, with pc moved on. -/
theorem exec_drw_ok {d : Canvas} (hx : s.CanReadV x) (hy : s.CanReadV y) (hI : s.CanReadI)
    (h : n.toNat = 0 ∨ s.I.val.toNat + n.toNat ≤ 0x1000)
    (hd : d = draw (s.getV y).toNat (s.getV x).toNat
      ((List.range n.toNat).map fun k => s.byteAt (s.I.val.toNat + k)) s.fb) :
    exec (.drw x y n) s = .next ((s.setFb d.grid).setV vf (flagByte d.hit)).advance := by
  subst hd
  exact commit_bind_ok (readXY_ok hx hy)
    (by dsimp only; rw [readI_ok hI, except_bind_ok, readBytes_ok s _ _ h]; rfl)

theorem exec_drw_outOfRange (hx : s.CanReadV x) (hy : s.CanReadV y) (hI : s.CanReadI)
    (h : s.I.val.toNat + n.toNat > 0x1000) :
    exec (.drw x y n) s = .next (faultedBy (.drw x y n) (.outOfRange 0x1000) s) := by
  have hread : readBytes s.I.val.toNat n.toNat s = .error (.outOfRange 0x1000) :=
    readBytes_error s _ _ (by omega) (by omega) h
  exact commit_bind_error (readXY_ok hx hy) (by dsimp only; rw [readI_ok hI, except_bind_ok, hread]; rfl)

end

end Sys2Proof.Machine
end

section
/-! The statements of the family 44_display.md: Dxyn, what a draw toggles, and 00E0. -/

namespace Sys2Proof.Machine

/-- Settles O52: the flag is written last and reaches VF alone. -/
theorem drawReadsItsSprite : Obligations.DrawReadsItsSprite := by
  intro s x y n hx hy hI
  refine ⟨fun h => ?_, fun _ => exec_drw_outOfRange hx hy hI⟩
  have hfits : n.toNat = 0 ∨ s.I.val.toNat + n.toNat ≤ 0x1000 := h.imp_left (congrArg BitVec.toNat)
  refine ⟨_, _, exec_drw_ok hx hy hI hfits rfl, rfl, rfl, ?_, fun r hr => ?_, fun _ => rfl, rfl, rfl⟩
  · rw [State.regV_advance, State.regV_setV_same, flagByte]
  · rw [State.regV_advance, State.regV_setV_ne _ _ (List.mem_singleton.not.mp hr), State.regV_setFb]

/-- Settles O53. -/
theorem drawTogglesWhatTheSpriteCovers : Obligations.DrawTogglesWhatTheSpriteCovers := by
  intro row col bytes g hlen
  have h := toggles_draw row col hlen g
  exact ⟨fun r c hr hc => ⟨h.flipped r c, h.kept r c hr hc⟩, draw_hit_iff row col hlen g⟩

/-- Settles O54: the second draw finds each covered cell toggled, so on when it was off at first. -/
theorem drawingTwiceRestoresTheScreen : Obligations.DrawingTwiceRestoresTheScreen := by
  intro row col bytes g hlen
  have hflip := (toggles_draw row col hlen g).flipped
  have hhit := draw_hit_iff row col hlen (draw row col bytes g).grid
  refine ⟨draw_draw_grid row col hlen g, hhit, fun hoff ⟨r, c, hcov⟩ => ?_, fun hon => ?_⟩
  · exact hhit.mpr ⟨r, c, hcov, by rw [hflip r c hcov, hoff r c hcov, Bool.not_false]⟩
  · refine Bool.eq_false_iff.mpr fun hsecond => ?_
    obtain ⟨r, c, hcov, hpixel⟩ := hhit.mp hsecond
    rw [hflip r c hcov, hon r c hcov] at hpixel
    exact Bool.false_ne_true hpixel

/-- Settles O51. -/
theorem clearScreen : Obligations.ClearScreen := fun s =>
  ⟨_, exec_cls s, pixel_blankGrid, fun _ => rfl, rfl, rfl⟩

end Sys2Proof.Machine
end

section
/-! SUPPORT. The keyboard and timer instructions (spec/45_keys_timers.md R210 to R217) by what they
answer. -/

namespace Sys2Proof.Machine

/-! ## Key numbers and key events -/

/-- R217: a value names a key when it is at most 15, or by its low nibble under
KEY_INDEX_POLICY = low_nibble. -/
theorem keyIndex_ok {p : Params} {v : Byte} {k : Nibble}
    (h : v.toNat ≤ 15 ∨ p.keyIndexPolicy = .lowNibble) (hk : k.toNat = v.toNat % 16) :
    keyIndex p v = .ok k := by
  unfold keyIndex
  by_cases hv : v.toNat ≤ 15
  · rw [if_pos hv, ← Nat.mod_eq_of_lt (Nat.lt_succ_of_le hv), ← hk, BitVec.ofNat_toNat, BitVec.setWidth_eq]
  · rw [if_neg hv, h.resolve_left hv]
    dsimp only
    rw [byte_and_low_nibble_toNat, ← hk, BitVec.ofNat_toNat, BitVec.setWidth_eq]

theorem keyIndex_error {p : Params} {v : Byte} (h : v.toNat > 15) (hp : p.keyIndexPolicy = .fault) :
    keyIndex p v = .error (.keyIndexOutOfRange v) := by
  rw [keyIndex, if_neg (Nat.not_le.mpr h), hp]

/-- A key is there to take exactly when some key has a key event, and the key taken has one. -/
theorem exists_pickKey_eventKeys {s : State} (n : Nat) (h : ∃ k, keyEvent s k = true) :
    ∃ k, keyEvent s k = true ∧ pickKey n (eventKeys s) = some k := by
  cases hpick : pickKey n (eventKeys s) with
  | none =>
    obtain ⟨j, hj⟩ := h
    have hmem := (mem_eventKeys s j).mpr hj
    rw [pickKey_eq_none_iff.mp hpick] at hmem
    exact absurd hmem List.not_mem_nil
  | some k => exact ⟨k, (mem_eventKeys s k).mp (pickKey_mem hpick), rfl⟩

theorem pickKey_eventKeys_none {s : State} (n : Nat) (h : ∀ k, ¬ keyEvent s k = true) :
    pickKey n (eventKeys s) = none :=
  pickKey_eq_none_iff.mpr (List.eq_nil_iff_forall_not_mem.mpr fun k hk => h k ((mem_eventKeys s k).mp hk))

/-! ## What each instruction answers -/

section
variable {s : State} {x k : Nibble}

theorem exec_skp_ok (hx : s.CanReadV x) (hk : keyIndex s.params (s.getV x) = .ok k) :
    exec (.skp x) s = .next (s.skipIf (decide (keyDown s.keys k = true))) :=
  commit_bind_ok (readV_ok hx) (by rw [hk, Bool.decide_eq_true]; rfl)

theorem exec_sknp_ok (hx : s.CanReadV x) (hk : keyIndex s.params (s.getV x) = .ok k) :
    exec (.sknp x) s = .next (s.skipIf (decide (¬ keyDown s.keys k = true))) :=
  commit_bind_ok (readV_ok hx) (by rw [hk, decide_not, Bool.decide_eq_true]; rfl)

theorem exec_skp_error {e : FaultKind} (hx : s.CanReadV x)
    (hk : keyIndex s.params (s.getV x) = .error e) :
    exec (.skp x) s = .next (faultedBy (.skp x) e s) :=
  commit_bind_error (readV_ok hx) (by rw [hk]; rfl)

theorem exec_sknp_error {e : FaultKind} (hx : s.CanReadV x)
    (hk : keyIndex s.params (s.getV x) = .error e) :
    exec (.sknp x) s = .next (faultedBy (.sknp x) e s) :=
  commit_bind_error (readV_ok hx) (by rw [hk]; rfl)

theorem exec_ldVxK_event (x : Nibble) (h : ∃ k, keyEvent s k = true) :
    ∃ k, keyEvent s k = true ∧ exec (.ldVxK x) s = .next (s.setV x (k.setWidth 8)).advance := by
  obtain ⟨k, hk, hpick⟩ := exists_pickKey_eventKeys (Config.freePick s.draws) h
  refine ⟨k, hk, ?_⟩
  change execLdVxK x s = _
  rw [execLdVxK, hpick, commit_ok]

theorem exec_ldVxK_hold (x : Nibble) (h : ∀ k, ¬ keyEvent s k = true) :
    exec (.ldVxK x) s = .next s := by
  change execLdVxK x s = _
  rw [execLdVxK, pickKey_eventKeys_none _ h, commit_ok]

theorem exec_ldVxDt_ok (x : Nibble) (h : s.CanReadDT) :
    exec (.ldVxDt x) s = .next (s.setV x s.DT.val).advance :=
  commit_bind_ok (readDT_ok h) rfl

theorem exec_ldDtVx_ok (hx : s.CanReadV x) :
    exec (.ldDtVx x) s = .next (s.setDT (s.getV x)).advance :=
  commit_bind_ok (readV_ok hx) rfl

theorem exec_ldStVx_ok (hx : s.CanReadV x) :
    exec (.ldStVx x) s = .next (s.setST (s.getV x)).advance :=
  commit_bind_ok (readV_ok hx) rfl

end

end Sys2Proof.Machine
end

section
/-! The statements of the family 45_keys_timers.md: the key skips, the wait for a key and the timers. -/

namespace Sys2Proof.Machine

/-- Settles O55: KEY_INDEX_POLICY decides a V[x] above 15, and the key it names decides the skip. -/
theorem keySkips : Obligations.KeySkips := by
  refine fun s x k hx => ⟨fun hnames hk => ?_, fun hv hp => ?_⟩
  · have hkey := keyIndex_ok hnames hk
    exact ⟨skips_when (exec_skp_ok hx hkey), skips_unless (exec_sknp_ok hx hkey)⟩
  · have hkey := keyIndex_error hv hp
    exact ⟨exec_skp_error hx hkey, exec_sknp_error hx hkey⟩

/-- Settles O56: the statement's events are the model's under each trigger. -/
theorem waitForAKey : Obligations.WaitForAKey := by
  intro s x event hevent
  have hmodel (k : Nibble) : event k ↔ keyEvent s k = true := by
    rw [hevent k, keyEvent]
    cases s.params.fx0aTrigger <;> simp
  simp only [hmodel]
  refine ⟨fun h => ?_, exec_ldVxK_hold x⟩
  obtain ⟨k, hk, hexec⟩ := exec_ldVxK_event x h
  refine ⟨_, k, hk, hexec, ?_, ?_, onlyRegsAndPc_setV_advance s x _, rfl⟩
  · rw [State.regV_advance, State.regV_setV_same, Reg.put_written]
  · rw [State.getV_advance, State.getV_setV_same, BitVec.toNat_setWidth_of_le (by decide)]

/-- Settles O57: Fx18 leaves ST written, so the sound signal follows the value it wrote. -/
theorem timerInstructions : Obligations.TimerInstructions := by
  refine fun s x => ⟨fun h => ?_, fun hx => ?_, fun hx => ?_⟩
  · exact ⟨_, exec_ldVxDt_ok x h, State.regV_setV_same s x _, onlyRegsAndPc_setV_advance s x _, rfl⟩
  · exact ⟨_, exec_ldDtVx_ok hx, rfl, fun _ => rfl, rfl, rfl⟩
  · have hread : (s.setST (s.getV x)).advance.ST.readable s.params = true :=
      Reg.readable_iff.mpr (.inr rfl)
    exact ⟨_, exec_ldStVx_ok hx, rfl, State.sound_of_readable hread, fun _ => rfl, rfl, rfl⟩

end Sys2Proof.Machine
end

section
/-! SUPPORT. The fault of an instruction's step (spec/60_exceptions.md R230 to R235): that of its first
operand register that can not be read, or else one of its own row. -/

namespace Sys2Proof.Machine

/-! ## Operand registers that can not be read -/

/-- The first of some registers that can not be read. -/
def State.unreadIn (s : State) (rs : List RegName) : Option RegName := rs.find? fun r => !s.canRead r

theorem firstUnread_eq (i : Instr) (s : State) :
    firstUnread i s = s.unreadIn (operandRegs s.params i) := rfl

@[simp] theorem State.unreadIn_nil (s : State) : s.unreadIn [] = none := rfl

@[simp] theorem State.unreadIn_cons_of_read {s : State} {n : RegName} {rs : List RegName}
    (h : s.canRead n = true) : s.unreadIn (n :: rs) = s.unreadIn rs :=
  List.find?_cons_of_neg (by simp [h])

@[simp] theorem State.unreadIn_cons_of_unread {s : State} {n : RegName} {rs : List RegName}
    (h : s.canRead n = false) : s.unreadIn (n :: rs) = some n :=
  List.find?_cons_of_pos (by simp [h])

theorem State.canRead_of_unreadIn {s : State} {n : RegName} {rs : List RegName}
    (h : s.unreadIn rs = some n) : s.canRead n = false := by
  simpa using List.find?_some h

/-- Only under RESET_REGS = unwritten_faults is there a register that can not be read. -/
theorem State.resetRegs_of_unread {s : State} {n : RegName} (h : s.canRead n = false) :
    s.params.resetRegs = .unwrittenFaults := by
  cases hp : s.params.resetRegs with
  | zero => cases n <;> exact absurd h (by simp [Reg.readable_of_zero hp])
  | unwrittenFaults => rfl

/-- The general registers before one, by their numbers. -/
theorem forall_nibble_lt_iff {y : Nibble} {P : Nibble → Prop} :
    (∀ r, r < y → P r) ↔ ∀ j, j < y.toNat → P (BitVec.ofNat 4 j) := by
  constructor
  · intro h j hj
    have hnat : (BitVec.ofNat 4 j).toNat = j := Nat.mod_eq_of_lt (by omega)
    exact h _ (by rw [BitVec.lt_def]; omega)
  · intro h r hr
    simpa using h r.toNat (BitVec.lt_def.mp hr)

/-- The first of V[0] to V[x] that can not be read. -/
theorem State.unreadIn_regs {s : State} {x : Nibble} {n : RegName} :
    s.unreadIn ((List.range (x.toNat + 1)).map fun k => .v (BitVec.ofNat 4 k)) = some n ↔
      ∃ y, n = .v y ∧ y ≤ x ∧ ¬ s.CanReadV y ∧ ∀ r, r < y → s.CanReadV r := by
  simp only [State.unreadIn, List.find?_map, Option.map_eq_some_iff, List.find?_range_eq_some,
    Function.comp_apply, State.canRead_v, List.mem_range, forall_nibble_lt_iff]
  constructor
  · rintro ⟨m, ⟨hunread, hm, hbelow⟩, rfl⟩
    have hnat : (BitVec.ofNat 4 m).toNat = m := Nat.mod_eq_of_lt (by omega)
    exact ⟨_, rfl, by rw [BitVec.le_def]; omega, by simpa using hunread, by simpa [hnat] using hbelow⟩
  · rintro ⟨y, rfl, hy, hunread, hbelow⟩
    rw [BitVec.le_def] at hy
    exact ⟨y.toNat, ⟨by simpa using hunread, by omega, by simpa using hbelow⟩, by simp⟩

/-! ## Which fault -/

/-- What R230 to R235 say of an instruction that raises a fault of each kind. -/
def RaisedBy (i : Instr) (s : State) : FaultKind → Prop
  | .outOfRange a => a = 0x1000 ∧
      ((∃ x y n, i = .drw x y n) ∨ (∃ x, i = .ldBVx x ∨ i = .ldMemVx x ∨ i = .ldVxMem x))
  | .stackOverflow => s.sp.val = 16 ∧ ∃ nnn, i = .call nnn
  | .stackUnderflow => s.sp.val = 0 ∧ i = .ret
  | .keyIndexOutOfRange v => s.params.keyIndexPolicy = .fault ∧ v.toNat > 15 ∧
      ∃ x, (i = .skp x ∨ i = .sknp x) ∧ v = s.getV x
  | .unwrittenRead r => s.params.resetRegs = .unwrittenFaults ∧ firstUnread i s = some r

/-- The fault of an instruction whose first operand register that can not be read is this one: the read
of it, unless a store of Fx55 at 0x1000 comes before that read (log 18). -/
def operandFault (i : Instr) (s : State) (n : RegName) : FaultKind :=
  match i, n with
  | .ldMemVx _, .v y =>
    if s.I.val.toNat + y.toNat ≤ 0x1000 then .unwrittenRead (.v y) else .outOfRange 0x1000
  | _, n => .unwrittenRead n

theorem raisedBy_operandFault {i : Instr} {s : State} {n : RegName} (h : firstUnread i s = some n) :
    RaisedBy i s (operandFault i s n) := by
  have hread : RaisedBy i s (.unwrittenRead n) :=
    ⟨State.resetRegs_of_unread (State.canRead_of_unreadIn h), h⟩
  unfold operandFault
  split
  · split
    · exact hread
    · exact ⟨rfl, .inr ⟨_, .inr (.inl rfl)⟩⟩
  · exact hread

/-! ## The faults of the stack and of the key number -/

theorem raisedBy_of_push (nnn : Addr) {v : Word} {s : State} {k : FaultKind}
    (h : push v s = .error k) : RaisedBy (.call nnn) s k := by
  have hsp := s.sp.isLt
  by_cases hfull : s.sp.val = 16
  · rw [push_error v hfull] at h
    cases h
    exact ⟨hfull, nnn, rfl⟩
  · rw [push_ok v (by omega)] at h
    cases h

theorem raisedBy_of_pop {s : State} {k : FaultKind} (h : pop s = .error k) : RaisedBy .ret s k := by
  rcases pop_cases s with ⟨hsp, e⟩ | ⟨_, _, e⟩
  · rw [e] at h
    cases h
    exact ⟨hsp, rfl⟩
  · rw [e] at h
    cases h

theorem raisedBy_of_keyIndex {i : Instr} {s : State} {x : Nibble} {k : FaultKind}
    (hi : i = .skp x ∨ i = .sknp x) (h : keyIndex s.params (s.getV x) = .error k) : RaisedBy i s k := by
  unfold keyIndex at h
  split at h
  · cases h
  · next hv =>
    split at h
    · next hp =>
      cases h
      exact ⟨hp, by omega, x, hi, rfl⟩
    · cases h

/-! ## Bodies that read registers in order -/

/-- A body that reads some registers in order and is otherwise the rest of an instruction's: it answers
with the status as before when all of them can be read, and it raises the fault of the first that can
not, or, when all can, a fault of the instruction's row. -/
def ReadsInOrder (i : Instr) (s : State) (rs : List RegName) : Except FaultKind State → Prop
  | .ok t => s.unreadIn rs = none ∧ t.status = s.status
  | .error k => (∃ n, s.unreadIn rs = some n ∧ k = operandFault i s n) ∨
      (s.unreadIn rs = none ∧ RaisedBy i s k)

section
variable {i : Instr} {s : State} {rs : List RegName}

theorem ReadsInOrder.ok {t : State} (h : t.status = s.status) : ReadsInOrder i s [] (.ok t) := ⟨rfl, h⟩

/-- An operation other than a register read, whose faults are of the instruction's row. -/
theorem ReadsInOrder.bind {α : Type} {r : Except FaultKind α} {f : α → Except FaultKind State}
    (hr : ∀ k, r = .error k → RaisedBy i s k) (hf : ∀ a, r = .ok a → ReadsInOrder i s [] (f a)) :
    ReadsInOrder i s [] (r >>= f) := by
  cases r with
  | ok a => exact hf a rfl
  | error k => exact .inr ⟨rfl, hr k rfl⟩

/-- The read of the first register; the rest sees its value. -/
theorem ReadsInOrder.read {w : Nat} {n : RegName} {r : Reg w} {f : BitVec w → Except FaultKind State}
    (hf : ReadsInOrder i s rs (f r.val)) (hr : s.canRead n = r.readable s.params := by rfl)
    (hn : operandFault i s n = .unwrittenRead n := by rfl) :
    ReadsInOrder i s (n :: rs) (readReg s.params n r >>= f) := by
  cases hread : r.readable s.params with
  | true =>
    rw [readReg_ok n hread, except_bind_ok]
    unfold ReadsInOrder
    rwa [State.unreadIn_cons_of_read (hr.trans hread)]
  | false =>
    rw [readReg_error n hread, except_bind_error]
    exact .inl ⟨n, State.unreadIn_cons_of_unread (hr.trans hread), hn.symm⟩

theorem ReadsInOrder.readXY {x y : Nibble} {f : Byte × Byte → Except FaultKind State}
    (hf : ReadsInOrder i s rs (f (s.getV x, s.getV y)))
    (hx : operandFault i s (.v x) = .unwrittenRead (.v x) := by rfl)
    (hy : operandFault i s (.v y) = .unwrittenRead (.v y) := by rfl) :
    ReadsInOrder i s (.v x :: .v y :: rs) (readXY x y s >>= f) := by
  have hbody : (Machine.readXY x y s >>= f) = readV x s >>= fun a => readV y s >>= fun b => f (a, b) := by
    simp only [Machine.readXY, bind_assoc, pure_bind]
  rw [hbody]
  exact .read (.read hf rfl hy) rfl hx

end

/-- Fx55's stores when V[y] is the first register that can not be read: they raise at V[y], or at 0x1000
when a store before the read of V[y] is there. -/
theorem storeRegs_of_unread {s : State} {x y : Nibble} (hyx : y ≤ x) (hy : ¬ s.CanReadV y)
    (hbelow : ∀ r, r < y → s.CanReadV r) :
    storeRegs s.I.val.toNat 0 (x.toNat + 1) s = .error (operandFault (.ldMemVx x) s (.v y)) := by
  rw [BitVec.le_def] at hyx
  rw [forall_nibble_lt_iff] at hbelow
  unfold operandFault
  dsimp only
  split
  · next hfits =>
    simpa using storeRegs_unread s.I.val.toNat (x.toNat + 1) y.toNat 0 s (by omega) (by omega) (by omega)
      hfits (fun j _ hj => hbelow j hj) (by simpa using hy)
  · next hfits =>
    exact storeRegs_error _ _ 0 s (by omega) (by omega) (by omega) (by omega)
      fun j _ _ hj => hbelow j (by omega)

/-- Fx55's stores: V[0] to V[x] are read in order, the reads before the store at 0x1000 only. -/
theorem readsInOrder_storeRegs {s : State} {x : Nibble} {f : State → Except FaultKind State}
    (hf : ∀ t, storeRegs s.I.val.toNat 0 (x.toNat + 1) s = .ok t →
      ∃ u, f t = .ok u ∧ u.status = s.status) :
    ReadsInOrder (.ldMemVx x) s ((List.range (x.toNat + 1)).map fun k => .v (BitVec.ofNat 4 k))
      (storeRegs s.I.val.toNat 0 (x.toNat + 1) s >>= f) := by
  cases hun : s.unreadIn ((List.range (x.toNat + 1)).map fun k => .v (BitVec.ofNat 4 k)) with
  | some n =>
    obtain ⟨y, rfl, hyx, hy, hbelow⟩ := State.unreadIn_regs.mp hun
    rw [storeRegs_of_unread hyx hy hbelow]
    exact .inl ⟨_, hun, rfl⟩
  | none =>
    cases hstore : storeRegs s.I.val.toNat 0 (x.toNat + 1) s with
    | ok t =>
      obtain ⟨u, hu, hstatus⟩ := hf t hstore
      rw [except_bind_ok, hu]
      exact ⟨hun, hstatus⟩
    | error k =>
      rcases storeRegs_error_kind _ _ (by omega) hstore with rfl | ⟨-, m, -, hm, -, hunread, -⟩
      · exact .inr ⟨hun, rfl, .inr ⟨x, .inr (.inl rfl)⟩⟩
      · have hread := List.find?_eq_none.mp hun (.v (BitVec.ofNat 4 m))
          (List.mem_map_of_mem (List.mem_range.mpr (by omega)))
        exact absurd hunread (by simpa using hread)

/-- An instruction's body reads its operand registers in order, and it is what `exec` commits. -/
theorem exec_readsInOrder (i : Instr) (s : State) :
    ∃ r, exec i s = commit i s r ∧ ReadsInOrder i s (operandRegs s.params i) r := by
  cases i with
  | cls | sys _ | jp _ | ldINnn _ => exact ⟨.ok _, rfl, .ok rfl⟩
  | ldVxKk _ _ | rnd _ _ => exact ⟨.ok _, rfl, .ok rfl⟩
  | ret =>
    exact ⟨_, rfl, .bind (fun _ => raisedBy_of_pop) fun ⟨_, _⟩ h =>
      .ok ((State.setPc_status _ _).trans (status_of_pop h))⟩
  | call _ =>
    exact ⟨_, rfl, .bind (fun _ => raisedBy_of_push _) fun _ h =>
      .ok ((State.setPc_status _ _).trans (status_of_push h))⟩
  | jpV0 _ => exact ⟨_, rfl, .read (.ok rfl)⟩
  | seVxKk _ _ | sneVxKk _ _ | addVxKk _ _ | ldVxVy _ _ => exact ⟨_, rfl, .read (.ok rfl)⟩
  | ldVxDt _ | ldDtVx _ | ldStVx _ | ldFVx _ => exact ⟨_, rfl, .read (.ok rfl)⟩
  | seVxVy _ _ | sneVxVy _ _ | orVxVy _ _ | andVxVy _ _ | xorVxVy _ _ | addVxVy _ _ | sub _ _
  | subn _ _ => exact ⟨_, rfl, .readXY (.ok rfl)⟩
  | shr x y | shl x y =>
    refine ⟨_, rfl, ?_⟩
    rw [shiftOperand_eq]
    exact .read (.ok rfl)
  | drw x y n =>
    refine ⟨_, rfl, .readXY (.read (.bind (fun k hk => ?_) fun _ _ => .ok rfl))⟩
    rw [readBytes_error_kind _ (by omega) hk]
    exact ⟨rfl, .inl ⟨x, y, n, rfl⟩⟩
  | skp _ =>
    exact ⟨_, rfl, .read (.bind (fun _ => raisedBy_of_keyIndex (.inl rfl)) fun _ _ => .ok rfl)⟩
  | sknp _ =>
    exact ⟨_, rfl, .read (.bind (fun _ => raisedBy_of_keyIndex (.inr rfl)) fun _ _ => .ok rfl)⟩
  | ldVxK _ =>
    refine ⟨_, rfl, ?_⟩
    split <;> exact .ok rfl
  | addIVx _ => exact ⟨_, rfl, .read (.read (.ok (State.indexFlag_status _ _ _)))⟩
  | ldBVx x =>
    refine ⟨_, rfl, .read (.read (.bind (fun k hk => ?_) fun _ h =>
      .ok (writeBytes_storedAt _ h).status))⟩
    rw [writeBytes_error_kind (by omega) hk]
    exact ⟨rfl, .inr ⟨x, .inl rfl⟩⟩
  | ldMemVx x =>
    exact ⟨_, rfl, .read (readsInOrder_storeRegs fun _ h =>
      ⟨_, rfl, (storeRegs_storedAt _ _ h).status⟩)⟩
  | ldVxMem x =>
    refine ⟨_, rfl, .read (.bind (fun k hk => ?_) fun _ h => .ok (by simpa using status_of_loadRegs h))⟩
    rw [loadRegs_error_kind (by omega) (by omega) hk]
    exact ⟨rfl, .inr ⟨x, .inr (.inr rfl)⟩⟩

/-! ## The fault of a step -/

/-- An instruction with an operand register that can not be read raises the fault of the first one. -/
theorem exec_of_firstUnread {i : Instr} {s : State} {n : RegName} (h : firstUnread i s = some n) :
    exec i s = .next (faultedBy i (operandFault i s n) s) := by
  obtain ⟨r, e, hr⟩ := exec_readsInOrder i s
  rw [firstUnread_eq] at h
  cases r with
  | ok t =>
    obtain ⟨hnone, -⟩ := hr
    exact nomatch h.symm.trans hnone
  | error k =>
    rcases hr with ⟨m, hm, rfl⟩ | ⟨hnone, -⟩
    · cases h.symm.trans hm
      exact e
    · exact nomatch h.symm.trans hnone

/-- A step that leaves a Running state Faulted raised a fault that R230 to R235 give its instruction. -/
theorem raisedBy_of_exec_faulted {i : Instr} {s t : State} {rec : FaultRecord} (hs : s.status = .running)
    (h : exec i s = .next t) (ht : t.status = .faulted rec) : RaisedBy i s rec.kind := by
  obtain ⟨r, e, hr⟩ := exec_readsInOrder i s
  rw [e] at h
  rcases commit_next_iff.mp h with rfl | ⟨k, rfl, rfl⟩
  · obtain ⟨-, hkeeps⟩ := hr
    exact nomatch ht.symm.trans (hkeeps.trans hs)
  · cases ht
    rcases hr with ⟨n, hn, rfl⟩ | ⟨-, hrow⟩
    · exact raisedBy_operandFault hn
    · exact hrow

/-- Instructions whose first operand register that can not be read is one and the same, and that no
store precedes, raise the read of it. -/
theorem exec_unwrittenRead_of_forall {s : State} {n : RegName} {is : List Instr}
    (h : ∀ i ∈ is, firstUnread i s = some n ∧ operandFault i s n = .unwrittenRead n) :
    ∀ i ∈ is, exec i s = .next (faultedBy i (.unwrittenRead n) s) := by
  intro i hi
  obtain ⟨hfirst, hfault⟩ := h i hi
  rw [exec_of_firstUnread hfirst, hfault]

end Sys2Proof.Machine
end

section
/-! The statements of the family 60_exceptions.md: which instruction raises which fault, and the operands
that raise UnwrittenRead. -/

namespace Sys2Proof.Machine

/-- Settles O25: the record is of the first unreadable operand, or of the row of the instruction. -/
theorem faultKindsByInstruction : Obligations.FaultKindsByInstruction :=
  fun _ _ _ _ => raisedBy_of_exec_faulted

/-- Settles O26: in each clause the register named is the first operand that can not be read. -/
theorem unwrittenOperandsFault : Obligations.UnwrittenOperandsFault := by
  intro s x y n kk nnn
  simp only [Bool.not_eq_true]
  refine ⟨fun hx => exec_unwrittenRead_of_forall (by simp [firstUnread_eq, operandRegs, operandFault, hx]),
    fun hx hy => exec_unwrittenRead_of_forall (by simp [firstUnread_eq, operandRegs, operandFault, hx, hy]),
    fun h => List.forall_mem_cons.mpr ⟨exec_of_firstUnread (State.unreadIn_cons_of_unread h),
      List.forall_mem_singleton.mpr (exec_of_firstUnread (State.unreadIn_cons_of_unread h))⟩,
    fun h0 => exec_of_firstUnread (State.unreadIn_cons_of_unread h0),
    fun hI => exec_unwrittenRead_of_forall (by simp [firstUnread_eq, operandRegs, operandFault, hI]),
    fun hx hI => exec_of_firstUnread (by simp [firstUnread_eq, operandRegs, hx, hI]),
    fun hx hy hI => exec_of_firstUnread (by simp [firstUnread_eq, operandRegs, hx, hy, hI]),
    fun hI hx => exec_of_firstUnread (by simp [firstUnread_eq, operandRegs, hx, hI]),
    fun hDT => exec_of_firstUnread (State.unreadIn_cons_of_unread hDT),
    fun hI hyx hbelow hy hfits => ?_⟩
  have hfault : operandFault (.ldMemVx x) s (.v y) = .unwrittenRead (.v y) := if_pos hfits
  rw [← hfault]
  exact exec_of_firstUnread ((State.unreadIn_cons_of_read (n := .i) hI).trans
    (State.unreadIn_regs.mpr ⟨y, rfl, hyx, by simpa using hy, hbelow⟩))

end Sys2Proof.Machine
end

section
/-! SUPPORT. Memory at reset (spec/70_reset_and_hazards.md R261), and what a host call leaves of the
queue and the count (logs 20, 22). -/

namespace Sys2Proof.Machine

/-! ## Memory at reset -/

theorem unlistedByte_font (p : Params) {j : Nat} (h : j < 80) :
    unlistedByte p (p.fontBase.toNat + j) = p.fontData[j] := by
  simp [unlistedByte, h]

theorem unlistedByte_outside_font {p : Params} {a : Nat}
    (h : a < p.fontBase.toNat ∨ p.fontBase.toNat + 80 ≤ a) : unlistedByte p a = 0x00#8 :=
  dif_neg (by omega)

/-- Reset's memory lists nothing, so every address reads as an unlisted one. -/
theorem byteAt_resetWith (p : Params) (a : Nat) : (State.resetWith p).byteAt a = unlistedByte p a := rfl

/-! ## The queue and the count over a host call -/

@[simp] theorem latchKeys_calls (t : State) : (latchKeys t).calls = t.calls := by
  unfold latchKeys
  split <;> rfl

@[simp] theorem latchKeys_draws (t : State) : (latchKeys t).draws = t.draws := by
  unfold latchKeys
  split <;> rfl

@[simp] theorem tick_calls (s : State) : (tick s).calls = s.calls := by
  unfold tick
  split <;> rfl

@[simp] theorem tick_draws (s : State) : (tick s).draws = s.draws := by
  unfold tick
  split <;> rfl

/-- Fetching and running leaves the queue and the count to the host. -/
theorem fetchAndRun_keeps_queue {s t : State} (h : fetchAndRun exec s = .next t) :
    t.calls = s.calls ∧ t.draws = s.draws := by
  rcases fetchAndRun_cases exec s with ⟨k, -, e⟩ | ⟨w, i, -, -, e⟩ | ⟨w, _, -, -, e⟩ <;> rw [e] at h
  · cases h; exact ⟨rfl, rfl⟩
  · obtain ⟨-, -, -, -, hqueue⟩ := (exec_sameBut h).host (by simp)
    exact hqueue
  · cases h; exact ⟨rfl, rfl⟩

/-- A host call that answers takes itself off the queue and is counted. -/
theorem step_takes_call {s t : State} {c : HostCall} {rest : List HostCall} (hc : s.calls = c :: rest)
    (h : step s = .next t) : t.calls = rest ∧ t.draws = s.draws + 1 := by
  cases c with
  | tick =>
    cases (step_tick hc).symm.trans h
    simp
  | step keys rnd =>
    obtain ⟨-, u, hu, rfl⟩ := coreStep_next_iff.mp ((step_step hc).symm.trans h)
    simpa [supply] using fetchAndRun_keeps_queue hu

end Sys2Proof.Machine
end

section
/-! The statements of the family 70_reset_and_hazards.md: the reset values, memory at reset and the load
of a program; and the host call that no script gives. -/

namespace Sys2Proof.Machine

/-- Settles O22: an unlisted address reads as a font byte inside the font, and as zero outside it. -/
theorem resetMemoryIsFontAndZero : Obligations.ResetMemoryIsFontAndZero := fun p =>
  ⟨fun _ h => (byteAt_resetWith p _).trans (unlistedByte_font p h),
    fun a h => (byteAt_resetWith p a).trans (unlistedByte_outside_font h)⟩

/-- Settles O23: the load is one block write from 0x200 on; the font of legal parameters ends below
0x200, so it is outside the write, and past the write every byte is still reset's zero. -/
theorem loadCopiesTheImage : Obligations.LoadCopiesTheImage := by
  intro p image hlegal
  obtain ⟨hfont, hzero⟩ := resetMemoryIsFontAndZero p
  have hend : p.fontBase.toNat + 79 ≤ 0x1FF := hlegal
  refine ⟨fun hlen => ?_, fun hlen => ?_⟩
  · obtain ⟨t, ht, hstored, hbytes⟩ :=
      writeBytes_ok image 0x200 (State.resetWith p) (.inr (by omega))
    exact ⟨t, ht, hstored.rest, hbytes, hstored.outside,
      fun a ha => (hstored.outside a (.inr ha)).trans (hzero a (by omega)),
      fun j hj => (hstored.outside _ (by omega)).trans (hfont j hj)⟩
  · have hne : image ≠ [] := List.ne_nil_of_length_pos (by omega)
    exact writeBytes_error image 0x200 _ (by omega) hne (by omega)

/-- Settles O9: the free call is taken as if it were the one queued call. -/
theorem unscriptedStepIsAFreeCall : Obligations.UnscriptedStepIsAFreeCall := by
  intro s hc
  refine ⟨step_nil hc, freeCall_cases s.draws, fun t ht => ?_⟩
  exact step_takes_call (s := { s with calls := [freeCall s.draws] }) rfl ((step_nil hc).symm.trans ht)

/-- Settles O21: the registers, the stack and the latch are vectors of one value each; I and the timers are
fields of reset. -/
theorem resetChosenValues : Obligations.ResetChosenValues := fun _ =>
  ⟨fun x => Vector.getElem_replicate x.isLt, rfl, rfl, rfl,
    fun _ hj => Vector.getElem_replicate hj, fun k => Vector.getElem_replicate k.isLt⟩

end Sys2Proof.Machine
end
